-- ==== Sys2Proof/Word.lean ====
section
/-! DEFINITION. The word types of the core (spec/00_scope.md R5, R7). -/

namespace Sys2Proof

/-- A word: an unsigned integer below `2^32`, bit 0 the least significant (00_scope R7). -/
abbrev Word := BitVec 32

/-- A byte: an unsigned integer below 256 (00_scope R7). -/
abbrev Byte := BitVec 8

/-- A micro-word: a 20-bit value, not a byte sequence (30_encoding R55, 20_memory R31). -/
abbrev MicroWord := BitVec 20

/-- Sixteen words: the shape of the Cipher State `S` and of the mix buffer `M` (10_state R11, R16). -/
abbrev Words := Vector Word 16

/-- Sixty-four bytes: one Keystream Block (10_state R19). -/
abbrev Block := Vector Byte 64

/-- A byte sequence delimited by the transport: a command or a response frame (30_encoding R46, R50). -/
abbrev Frame := List Byte

end Sys2Proof
end

