-- ==== Sys2Proof/Config.lean ====
section
/-! DEFINITION. The open values of the spec: what `S`, `M` and `B` hold after a hardware reset
(`RESET_S`, `RESET_M`, `RESET_B` of spec/00_scope.md R6; spec/10_state.md R24; spec/93 U1).

They are opaque, so no proof can lean on a value of theirs (DESIGN CHOICE, notes/assumptions/1.md).  The other
parameters of 00_scope R5 and R6 are fixed by the spec and stand where they are used. -/

namespace Sys2Proof

/-- What the three storages held when a reset was taken: the reset may leave any part of it standing, since no
erasure is promised (70_reset_and_hazards R140, 92_eei_decisions D26). -/
structure Storage where
  S : Words
  M : Words
  B : Block
  deriving DecidableEq, Repr

/-- `RESET_S`: word `i` of `S` after the `n`-th reset taken over `before` (none: the reset after power-on). Any value. -/
opaque Config.resetS (n : Nat) (before : Option Storage) (i : Fin 16) : Word

/-- `RESET_M`: word `i` of `M` after the `n`-th reset taken over `before`. Any value. -/
opaque Config.resetM (n : Nat) (before : Option Storage) (i : Fin 16) : Word

/-- `RESET_B`: byte `i` of `B` after the `n`-th reset taken over `before`. Any value. -/
opaque Config.resetB (n : Nat) (before : Option Storage) (i : Fin 64) : Byte

end Sys2Proof
end

