-- ==== Sys2Proof/Machine/State.lean ====
section
/-! DEFINITION. The state of one core (spec/10_state.md R10), its reasons to stop, and the state right after reset (R24). -/

namespace Sys2Proof.Machine

/-- The two state layouts, chosen by the nonce's length (10_state R14, R20). -/
inductive Variant where
  /-- 8-byte nonce, 64-bit block counter: bit 0. -/
  | classic
  /-- 12-byte nonce, 32-bit block counter: bit 1. -/
  | ietf
  deriving DecidableEq, Repr

/-- The five errors a command can be answered with (60_exceptions R122 to R126). -/
inductive ErrorKind where
  | invalidKeyLength
  | invalidNonceLength
  | emptyInput
  | notReady
  | illegalCommand
  deriving DecidableEq, Repr

/-- What the host does to the core's ports (70_reset_and_hazards R156, 92_eei_decisions D2). -/
inductive HostAction where
  /-- A command frame on `cmd`, presented after the response to the one before it (R147). -/
  | frame (f : Frame)
  /-- `rst` asserted: at once, also while a command is in progress (R140). -/
  | rst
  /-- A command frame whose command `rst` cuts short: no response, the reset state (R140, 93 U10). -/
  | cutFrame (f : Frame)
  deriving DecidableEq, Repr

/-- Why the machine stops. None of these is reached from a state that satisfies `State.StepInv` (Safety.lean). -/
inductive Fault where
  /-- Raised by the micro-step for a reserved micro-word and by QR for a repeated index (30_encoding R57, R60; 93 U4:
  "`fault`, unreachable"). Safe: the spec gives no effect. -/
  | reservedMicroWord
  /-- Raised by XORB when `cursor` is above 63: `B[cursor]` does not exist (10_state R19, 44_stream R108). Safe. -/
  | blockIndexOutOfRange
  /-- Raised by XORB when the command has no data byte left (44_stream R108 takes "the next data byte"). Safe. -/
  | noDataByte
  /-- Raised by INIT if DEC32LE were to read past its sequence (41_word_codec R78, 93 U5); INIT's length tests rule it
  out. Safe. -/
  | codecOutOfBounds
  /-- Raised by the sequencer when `seq` is above 84 (10_state R21). Safe. -/
  | sequencerOutOfRange
  deriving DecidableEq, Repr

/-- Why an instruction has no meaning. -/
inductive Refusal where
  /-- An instruction whose arm has no meaning yet. Raised by no arm of this model. Safe. -/
  | notModelled (mnemonic : String)
  deriving DecidableEq, Repr

/-- The whole state of one core. `S` to `seq` are the spec's record (10_state R10); `host` and `rsp` are its ports (D2);
`data`, `out` and `uir` are the command in progress, empty at a command boundary; `resets` only numbers the free
contents that a reset leaves. -/
structure State where
  /-- The Cipher State (R11). -/
  S : Words
  /-- The mix buffer (R16). -/
  M : Words
  /-- The Keystream Block (R19). -/
  B : Block
  /-- The Stream Cursor, legal 0 to 64 (R17). -/
  cursor : BitVec 7
  /-- The variant of the last successful INIT (R20). -/
  variant : Variant
  /-- A successful INIT is in force (R20). -/
  ready : Bool
  /-- Index of the next micro-word of the GEN program, legal 0 to 84 (R21). -/
  seq : BitVec 7
  /-- The micro-word issued next; none at a command boundary (notes/assumptions/4.md). -/
  uir : Option MicroWord
  /-- Data bytes of the command in progress not yet processed (20_memory R30). -/
  data : List Byte
  /-- Bytes the command in progress has emitted, oldest first (00_scope R8). -/
  out : List Byte
  /-- What the host still presents, oldest first. -/
  host : List HostAction
  /-- Response frames delivered, oldest first (30_encoding R50). -/
  rsp : List Frame
  /-- How many resets the core has taken since the one `State.reset` stands for (notes/assumptions/1.md). -/
  resets : Nat
  deriving DecidableEq, Repr

/-- The core right after the first reset (10_state R24, 70_reset_and_hazards R140, R141). `S`, `M`, `B` are the free
reset contents (notes/assumptions/1.md); the fields below `seq` are the model's own (notes/assumptions/2.md). -/
def State.reset : State where
  S := Vector.ofFn (Config.resetS 0 none)
  M := Vector.ofFn (Config.resetM 0 none)
  B := Vector.ofFn (Config.resetB 0 none)
  cursor := 0#7
  variant := .classic
  ready := false
  seq := 0#7
  uir := none
  data := []
  out := []
  host := []
  rsp := []
  resets := 0

end Sys2Proof.Machine
end

