-- ==== Sys2Proof/Machine/Ops.lean ====
section
/-! DEFINITION. The named operations over the state: answering a command, raising an error (the spec's one analogue of
taking an exception, spec/60_exceptions.md R121), and the hardware reset (spec/70_reset_and_hazards.md R140).

There is no return from an exception: an error enters no handler and saves nothing (60_exceptions R129). -/

namespace Sys2Proof.Machine

/-- The outcome of one instruction. -/
abbrev Result := Host.Outcome State Fault Refusal

/-- Go on with `f` where a next state was answered; a stop stays a stop. -/
def andThen (r : Result) (f : State → Result) : Result :=
  match r with
  | .next s => f s
  | .fault e => .fault e
  | .refused e => .refused e

/-- The `variant` bit: 0 classic, 1 IETF (10_state R20, 92_eei_decisions D18). -/
def variantBit : Variant → BitVec 1
  | .classic => 0#1
  | .ietf => 1#1

/-- The status byte of a success (30_encoding R50). -/
def statusOk : Byte := 0x00#8

/-- The status byte of an error (30_encoding R50). -/
def statusOf : ErrorKind → Byte
  | .invalidKeyLength => 0x01#8
  | .invalidNonceLength => 0x02#8
  | .emptyInput => 0x03#8
  | .notReady => 0x04#8
  | .illegalCommand => 0x05#8

/-- Deliver one response frame (30_encoding R50). -/
def respond (g : Frame) (s : State) : State := { s with rsp := s.rsp ++ [g] }

/-- `respond Ok(out)` (30_encoding R45, R50). -/
def respondOk (out : List Byte) (s : State) : State := respond (statusOk :: out) s

/-- Whether an error is one of INIT's, which clears `ready` (60_exceptions R121 to R126, 40_init R69). -/
def clearsReady : ErrorKind → Bool
  | .invalidKeyLength => true
  | .invalidNonceLength => true
  | .emptyInput => false
  | .notReady => false
  | .illegalCommand => false

/-- `raise e` (60_exceptions R121): the response is the one status byte, nothing is saved, nothing is changed but
`ready`, which a failing INIT clears; the core is at a command boundary again. -/
def raise (e : ErrorKind) (s : State) : State :=
  respond [statusOf e] { s with ready := s.ready && !clearsReady e }

/-- What the storages hold, for the free contents of a reset. -/
def storageOf (s : State) : Storage := { S := s.S, M := s.M, B := s.B }

/-- `rst` (70_reset_and_hazards R140, 10_state R24): a command in progress is abandoned without a response; `S`, `M`, `B`
are unspecified afterwards (notes/assumptions/1.md). What the host still presents and the responses already delivered
are outside the core. -/
def hardwareReset (s : State) : State :=
  { State.reset with
    S := Vector.ofFn (Config.resetS (s.resets + 1) (some (storageOf s)))
    M := Vector.ofFn (Config.resetM (s.resets + 1) (some (storageOf s)))
    B := Vector.ofFn (Config.resetB (s.resets + 1) (some (storageOf s)))
    host := s.host
    rsp := s.rsp
    resets := s.resets + 1 }

end Sys2Proof.Machine
end

