-- ==== Sys2Proof/Syntax.lean ====
section
/-! DEFINITION. The instructions: one constructor per row of spec/opcode_table.json, the three host commands of
spec/30_encoding.md R45 and the seven micro-operations of R56.  A frame that decodes to none of them (`ILLEGAL`, R51) is
no row of the table; the step answers it. -/

namespace Sys2Proof

/-- The host commands and the micro-operations. -/
inductive Instr where
  /-- INIT (40_init R65): a key and a nonce of any length. -/
  | init (key nonce : List Byte)
  /-- ENCRYPT (44_stream R112): data of any length. -/
  | encrypt (data : List Byte)
  /-- DECRYPT (44_stream R113): data of any length. -/
  | decrypt (data : List Byte)
  /-- LDMIX (42_block_function R88). -/
  | ldmix
  /-- QR (42_block_function R84): four indices into `M`. -/
  | qr (a b c d : Fin 16)
  /-- FFWD (42_block_function R91). -/
  | ffwd
  /-- SER (42_block_function R92). -/
  | ser
  /-- CTRINC (43_counter R100). -/
  | ctrinc
  /-- CLRCUR (44_stream R107). -/
  | clrcur
  /-- XORB (44_stream R108): its data byte is implicit. -/
  | xorb
  deriving DecidableEq, Repr

end Sys2Proof
end

