-- ==== Sys2Proof/WellFormed.lean ====
section
/-! DEFINITION. Which instructions have an encoding (spec/30_encoding.md R47, R54, R57). -/

namespace Sys2Proof

/-- The four indices of a QR are pairwise distinct (30_encoding R57). -/
def distinctIndices (a b c d : Fin 16) : Bool :=
  a != b && a != c && a != d && b != c && b != d && c != d

/-- An instruction that has an encoding: a key and a nonce whose lengths fit the frame's length bytes (30_encoding
R47, R54), a QR with distinct indices (R57).  Every other operand is encodable. -/
def Instr.wellFormed : Instr → Bool
  | .init key nonce => decide (key.length < 256) && decide (nonce.length < 256)
  | .encrypt _ => true
  | .decrypt _ => true
  | .ldmix => true
  | .qr a b c d => distinctIndices a b c d
  | .ffwd => true
  | .ser => true
  | .ctrinc => true
  | .clrcur => true
  | .xorb => true

end Sys2Proof
end

