-- ==== Sys2Proof/Machine/Operands.lean ====
section
/-! DEFINITION. The Word Codec (spec/41_word_codec.md R75 to R78) and the three word operations of the Block Function
(spec/42_block_function.md R80 to R83). -/

namespace Sys2Proof.Machine

/-! ### Word operations -/

/-- ADD32 (42 R80): the sum mod `2^32`, the carry discarded. -/
def add32 (a b : Word) : Word := a + b

/-- XOR32 (42 R81). -/
def xor32 (a b : Word) : Word := a ^^^ b

/-- ROTL32 (42 R82), for `0 < n < 32`; the core's amounts are 16, 12, 8, 7. -/
def rotl32 (w : Word) (n : Nat) : Word := (w <<< n) ||| (w >>> (32 - n))

/-! ### Word Codec -/

/-- `b0 | b1<<8 | b2<<16 | b3<<24` (41 R75). -/
def wordOfBytes (b0 b1 b2 b3 : Byte) : Word :=
  b0.setWidth 32 ||| (b1.setWidth 32 <<< 8) ||| (b2.setWidth 32 <<< 16) ||| (b3.setWidth 32 <<< 24)

/-- DEC32LE (41 R75): the word at `offset`, any offset (20_memory R33); no result past the end (41 R78, 93 U5). -/
def dec32le (bytes : List Byte) (offset : Nat) : Option Word :=
  match bytes.drop offset with
  | b0 :: b1 :: b2 :: b3 :: _ => some (wordOfBytes b0 b1 b2 b3)
  | _ => none

/-- ENC32LE (41 R76): four bytes, the least significant first. -/
def enc32le (w : Word) : Vector Byte 4 :=
  #v[w.extractLsb' 0 8, w.extractLsb' 8 8, w.extractLsb' 16 8, w.extractLsb' 24 8]

end Sys2Proof.Machine
end

