-- ==== Sys2Proof/Machine/Flags.lean ====
section
/-! DEFINITION. Flags: the core keeps none (spec/10_state.md R22). The one carry it acts on, from `S[12]` into `S[13]`
in the classic variant, is computed and used inside CTRINC and is not stored (spec/43_counter.md R100). -/

namespace Sys2Proof.Machine

/-- Whether CTRINC carries into `S[13]`, from the variant and the NEW low counter word (43_counter R100). -/
def counterCarry (v : Variant) (newLow : Word) : Bool :=
  match v with
  | .classic => newLow == 0#32
  | .ietf => false

end Sys2Proof.Machine
end

