-- ==== Sys2Proof/Machine/Init.lean ====
section
/-! DEFINITION. INIT, the Cipher State Initializer (spec/40_init.md R65 to R71). -/

namespace Sys2Proof.Machine

/-- State word 0, `expa` (10_state R11). -/
def const0 : Word := 0x61707865#32
/-- State word 1, `nd 3` (10_state R11). -/
def const1 : Word := 0x3320646e#32
/-- State word 2, `2-by` (10_state R11). -/
def const2 : Word := 0x79622d32#32
/-- State word 3, `te k` (10_state R11). -/
def const3 : Word := 0x6b206574#32

/-- The only legal key length in bytes (00_scope R5). -/
def keyBytes : Nat := 32

/-- The variant a nonce length selects, none for an illegal length (40_init R66, R67). -/
def variantOfNonce (len : Nat) : Option Variant :=
  if len = 8 then some .classic else if len = 12 then some .ietf else none

/-- The four words of the counter and the nonce, the counter zero (40_init R68). -/
def loadTail (v : Variant) (nonce : List Byte) : Option (Word × Word × Word × Word) :=
  match v with
  | .classic => do
    let n0 ← dec32le nonce 0
    let n1 ← dec32le nonce 4
    return (0#32, 0#32, n0, n1)
  | .ietf => do
    let n0 ← dec32le nonce 0
    let n1 ← dec32le nonce 4
    let n2 ← dec32le nonce 8
    return (0#32, n0, n1, n2)

/-- The sixteen words INIT loads (40_init R68); none only where DEC32LE would read past its sequence. -/
def loadState (v : Variant) (key nonce : List Byte) : Option Words := do
  let k0 ← dec32le key 0
  let k1 ← dec32le key 4
  let k2 ← dec32le key 8
  let k3 ← dec32le key 12
  let k4 ← dec32le key 16
  let k5 ← dec32le key 20
  let k6 ← dec32le key 24
  let k7 ← dec32le key 28
  let (w12, w13, w14, w15) ← loadTail v nonce
  return #v[const0, const1, const2, const3, k0, k1, k2, k3, k4, k5, k6, k7, w12, w13, w14, w15]

/-- The effect of a successful INIT on the state: `M`, `B` and `seq` are not written (40_init R68, R71). -/
def startStream (v : Variant) (words : Words) (s : State) : State :=
  { s with S := words, variant := v, cursor := 0#7, ready := true }

/-- INIT (40_init R65): the key test, then the nonce test (R66), the load (R68), `Ok(empty)`; a failure is R69's. -/
def execInit (key nonce : List Byte) (s : State) : Result :=
  if key.length ≠ keyBytes then .next (raise .invalidKeyLength s)
  else
    match variantOfNonce nonce.length with
    | none => .next (raise .invalidNonceLength s)
    | some v =>
      match loadState v key nonce with
      | none => .fault .codecOutOfBounds
      | some words => .next (respondOk [] (startStream v words s))

end Sys2Proof.Machine
end

