-- ==== Sys2Proof/Machine/BlockFunction.lean ====
section
/-! DEFINITION. The Block Function (spec/42_block_function.md): LDMIX, QR, FFWD, SER and their composition. -/

namespace Sys2Proof.Machine

/-! ### The quarter-round (42 R84) -/

/-- `M[x] <- M[x] +32 M[y]`. -/
def addInto (m : Words) (x y : Fin 16) : Words := m.set x (add32 m[x] m[y])

/-- `M[x] <- M[x] ^ M[y]`. -/
def xorInto (m : Words) (x y : Fin 16) : Words := m.set x (xor32 m[x] m[y])

/-- `M[x] <- rotl32(M[x], n)`. -/
def rotateAt (m : Words) (x : Fin 16) (n : Nat) : Words := m.set x (rotl32 m[x] n)

/-- One line of the quarter-round: `M[x] <- M[x] +32 M[y] ; M[z] <- M[z] ^ M[x] ; M[z] <- rotl32(M[z], n)`. -/
def arxLine (m : Words) (x y z : Fin 16) (n : Nat) : Words :=
  rotateAt (xorInto (addInto m x y) z x) z n

/-- QR (42 R84): four lines, the rotation amounts 16, 12, 8, 7 in this order (00_scope R5). -/
def quarterRound (m : Words) (a b c d : Fin 16) : Words :=
  arxLine (arxLine (arxLine (arxLine m a b d 16) c d b 12) a b d 8) c d b 7

/-! ### Rounds (42 R85, R87, R89) -/

/-- A group of indices, in the order of QR's operands. -/
abbrev Group := Fin 16 × Fin 16 × Fin 16 × Fin 16

/-- The column groups (42 R85). -/
def columnGroups : List Group := [(0, 4, 8, 12), (1, 5, 9, 13), (2, 6, 10, 14), (3, 7, 11, 15)]

/-- The diagonal groups (42 R85). -/
def diagonalGroups : List Group := [(0, 5, 10, 15), (1, 6, 11, 12), (2, 7, 8, 13), (3, 4, 9, 14)]

/-- QR on one group. -/
def qrGroup (m : Words) (g : Group) : Words := quarterRound m g.1 g.2.1 g.2.2.1 g.2.2.2

/-- QR on each group of a list, in its order. -/
def qrGroups (gs : List Group) (m : Words) : Words := gs.foldl qrGroup m

/-- DROUND (42 R87): a column round, then a diagonal round. -/
def doubleRound (m : Words) : Words := qrGroups diagonalGroups (qrGroups columnGroups m)

/-- PERMUTE (42 R89): ten double-rounds. Irreducible so that no unifier runs eighty quarter-rounds; the kernel still does. -/
@[irreducible] def permute (m : Words) : Words := Nat.iterate doubleRound 10 m

/-! ### Feed-forward, serialisation, BLOCK (42 R91 to R93) -/

/-- FFWD's elementwise addition. -/
def addWords (m s : Words) : Words := Vector.ofFn fun i => add32 m[i] s[i]

/-- SER's bytes: byte `4*i + j` is byte `j` of `ENC32LE` of word `i` (42 R92, 20_memory R32). -/
def serialize (m : Words) : Block := Vector.ofFn fun k => (enc32le m[k.val / 4])[k.val % 4]

/-- The sixteen result words of BLOCK (42 R93). -/
def resultWords (s : Words) : Words := addWords (permute s) s

/-- BLOCK as a function of the sixteen state words (42 R93). -/
def blockFunction (s : Words) : Block := serialize (resultWords s)

/-! ### The micro-operations on the state -/

/-- `M <- S` (42 R88). -/
def ldmix (s : State) : State := { s with M := s.S }

/-- PERMUTE on `M` (42 R89). -/
def permuteMix (s : State) : State := { s with M := permute s.M }

/-- `M[i] <- M[i] +32 S[i]` (42 R91). -/
def ffwd (s : State) : State := { s with M := addWords s.M s.S }

/-- `B <- ` the bytes of `M` (42 R92). -/
def ser (s : State) : State := { s with B := serialize s.M }

/-- LDMIX (42 R88). -/
def execLdmix (s : State) : Result := .next (ldmix s)

/-- QR (42 R84). A QR with a repeated index is given no meaning (30_encoding R57, 93 U4): the fault U4 asks for
(notes/assumptions/9.md). -/
def execQr (a b c d : Fin 16) (s : State) : Result :=
  if distinctIndices a b c d then .next { s with M := quarterRound s.M a b c d }
  else .fault .reservedMicroWord

/-- FFWD (42 R91). -/
def execFfwd (s : State) : Result := .next (ffwd s)

/-- SER (42 R92). -/
def execSer (s : State) : Result := .next (ser s)

end Sys2Proof.Machine
end

