-- ==== Sys2Proof/Machine/Counter.lean ====
section
/-! DEFINITION. The Counter Manager (spec/43_counter.md R100). -/

namespace Sys2Proof.Machine

/-- The counter increment on the state words: `S[12] +32 1`, and `S[13] +32 1` where the carry says so (43 R100).
The counter wraps silently (R104, 92_eei_decisions D15). -/
def incrementCounter (v : Variant) (s : Words) : Words :=
  let low := add32 s[12] 1#32
  if counterCarry v low then (s.set 12 low).set 13 (add32 s[13] 1#32) else s.set 12 low

/-- CTRINC on the state. -/
def ctrinc (s : State) : State := { s with S := incrementCounter s.variant s.S }

/-- CTRINC (43 R100). -/
def execCtrinc (s : State) : Result := .next (ctrinc s)

end Sys2Proof.Machine
end

