-- ==== Sys2Proof/Machine/Stream.lean ====
section
/-! DEFINITION. The Stream Cursor and XOR Processor (spec/44_stream.md): CLRCUR, XORB, GEN, BYTESTEP, ENCRYPT, DECRYPT. -/

namespace Sys2Proof.Machine

/-- `cursor <- 0` (44 R107). -/
def clrcur (s : State) : State := { s with cursor := 0#7 }

/-- CLRCUR (44 R107). -/
def execClrcur (s : State) : Result := .next (clrcur s)

/-- XORB (44 R108) on the next data byte: emit `x ^ B[cursor]`, move the cursor on. Outside its precondition
`cursor <= 63`, or with no data byte, the spec gives no effect (notes/assumptions/10.md). -/
def xorb (s : State) : Result :=
  match s.data with
  | [] => .fault .noDataByte
  | x :: rest =>
    if h : s.cursor.toNat < 64 then
      .next { s with data := rest, out := s.out ++ [x ^^^ s.B[s.cursor.toNat]], cursor := s.cursor + 1#7 }
    else .fault .blockIndexOutOfRange

/-- XORB (44 R108). -/
def execXorb (s : State) : Result := xorb s

/-- GEN as one atomic operation (44 R109): BLOCK, CTRINC, CLRCUR, and `seq` at 0 afterwards. The micro-program that does
it one micro-word at a time is Machine/Sequencer.lean's. -/
def gen (s : State) : State :=
  { clrcur (ctrinc (ser (ffwd (permuteMix (ldmix s))))) with seq := 0#7 }

/-- The machine's one condition (44 R110): no block generated yet, or the block consumed. -/
def blockNeeded (s : State) : Bool := s.cursor == 0#7 || s.cursor == 64#7

/-- BYTESTEP (44 R110). -/
def byteStep (s : State) : Result := xorb (if blockNeeded s then gen s else s)

/-- `n` byte steps in order (44 R112). -/
def streamBytes : Nat → State → Result
  | 0, s => .next s
  | n + 1, s => andThen (byteStep s) (streamBytes n)

/-- Take a command's data bytes in, with nothing emitted. -/
def acceptData (data : List Byte) (s : State) : State := { s with data := data, out := [] }

/-- The end of a data command: `respond Ok(out)`, back at a command boundary (44 R112). -/
def finishCommand (s : State) : State :=
  respondOk s.out { s with uir := none, data := [], out := [] }

/-- The XOR transform both data commands delegate to (44 R112, R113): `NotReady` first, then `EmptyInput`, then the
byte steps and the response. -/
def xorTransform (data : List Byte) (s : State) : Result :=
  if s.ready = false then .next (raise .notReady s)
  else if data = [] then .next (raise .emptyInput s)
  else andThen (streamBytes data.length (acceptData data s)) fun t => .next (finishCommand t)

/-- ENCRYPT (44 R112). -/
def execEncrypt (data : List Byte) (s : State) : Result := xorTransform data s

/-- DECRYPT (44 R113): its own opcode, the same transform. -/
def execDecrypt (data : List Byte) (s : State) : Result := xorTransform data s

end Sys2Proof.Machine
end

