-- ==== Sys2Proof/Machine/Dispatch.lean ====
section
/-! DEFINITION. One arm per constructor: which meaning an instruction has. -/

namespace Sys2Proof.Machine

def exec (i : Instr) (s : State) : Host.Outcome State Fault Refusal :=
  match i with
  | .init key nonce => Sys2Proof.Machine.execInit key nonce s
  | .encrypt data => Sys2Proof.Machine.execEncrypt data s
  | .decrypt data => Sys2Proof.Machine.execDecrypt data s
  | .ldmix => Sys2Proof.Machine.execLdmix s
  | .qr a b c d => Sys2Proof.Machine.execQr a b c d s
  | .ffwd => Sys2Proof.Machine.execFfwd s
  | .ser => Sys2Proof.Machine.execSer s
  | .ctrinc => Sys2Proof.Machine.execCtrinc s
  | .clrcur => Sys2Proof.Machine.execClrcur s
  | .xorb => Sys2Proof.Machine.execXorb s

end Sys2Proof.Machine
end

