-- ==== Sys2Proof/Decode.lean ====
section
/-! DEFINITION. The frame decoder and the micro-word decoder of spec/30_encoding.md, total and rejecting by name, and
after them the encoder, written from the same tables. -/

namespace Sys2Proof

/-- What an instruction is read from: a command frame on the port, or a micro-word of the sequencer (30_encoding R45, R55). -/
inductive Encoding where
  | frame (f : Frame)
  | micro (w : MicroWord)
  deriving DecidableEq, Repr

/-- Why a frame or a micro-word stands for no instruction. The first four are the cases (a) to (d) of 30_encoding R51
(the frame decodes to `ILLEGAL`); the last three are the reserved micro-words of R60. -/
inductive Reject where
  /-- R51 (a): the empty frame. -/
  | emptyFrame
  /-- R51 (b): a host opcode other than 01, 02, 03. -/
  | illegalOpcode
  /-- R51 (c): an INIT frame shorter than its two length bytes. -/
  | shortInit
  /-- R51 (d): an INIT frame whose length differs from 3 + klen + nlen. -/
  | initLength
  /-- R60: micro-opcode 0 or 8 to F. -/
  | reservedUop
  /-- R60: operand bits set on a micro-operation without operands. -/
  | operandBits
  /-- R60, R57: a QR with a repeated index. -/
  | repeatedIndex
  deriving DecidableEq, Repr

/-! ### Opcode values (30_encoding R49, R56) -/

/-- Host opcode of INIT. -/
def opInit : Byte := 0x01#8
/-- Host opcode of ENCRYPT. -/
def opEncrypt : Byte := 0x02#8
/-- Host opcode of DECRYPT. -/
def opDecrypt : Byte := 0x03#8

/-! ### Frames -/

/-- The bytes of an INIT frame after its opcode: `klen`, `nlen`, the key, the nonce (30_encoding R47, R53). -/
def decodeInit : Frame → Except Reject Instr
  | klen :: nlen :: payload =>
    if payload.length = klen.toNat + nlen.toNat then
      .ok (.init (payload.take klen.toNat) (payload.drop klen.toNat))
    else .error .initLength
  | _ => .error .shortInit

/-- The frame decoder (30_encoding R46 to R49, R51): total, the same in every state (R52). -/
def decodeFrame : Frame → Except Reject Instr
  | [] => .error .emptyFrame
  | op :: rest =>
    if op = opInit then decodeInit rest
    else if op = opEncrypt then .ok (.encrypt rest)
    else if op = opDecrypt then .ok (.decrypt rest)
    else .error .illegalOpcode

/-! ### Micro-words -/

/-- The 4-bit field of a micro-word whose lowest bit is `lo`, as an index (30_encoding R55, R57). -/
def microIndex (w : MicroWord) (lo : Nat) : Fin 16 := Fin.ofNat 16 (w.extractLsb' lo 4).toNat

/-- A micro-operation without operands needs bits 15..0 zero (30_encoding R60). -/
def plainMicro (w : MicroWord) (i : Instr) : Except Reject Instr :=
  if w.extractLsb' 0 16 = 0#16 then .ok i else .error .operandBits

/-- QR's four index fields, which must be pairwise distinct (30_encoding R57). -/
def decodeQr (w : MicroWord) : Except Reject Instr :=
  let a := microIndex w 12
  let b := microIndex w 8
  let c := microIndex w 4
  let d := microIndex w 0
  if distinctIndices a b c d then .ok (.qr a b c d) else .error .repeatedIndex

/-- The micro-word decoder (30_encoding R55 to R57, R60). -/
def decodeMicro (w : MicroWord) : Except Reject Instr :=
  match (w.extractLsb' 16 4).toNat with
  | 1 => plainMicro w .ldmix
  | 2 => decodeQr w
  | 3 => plainMicro w .ffwd
  | 4 => plainMicro w .ser
  | 5 => plainMicro w .ctrinc
  | 6 => plainMicro w .clrcur
  | 7 => plainMicro w .xorb
  | _ => .error .reservedUop

/-- The decoder of both levels. -/
def decode : Encoding → Except Reject Instr
  | .frame f => decodeFrame f
  | .micro w => decodeMicro w

/-! ### The encoder -/

/-- A micro-word from its five fields, high to low (30_encoding R55). -/
def microWord (uop : BitVec 4) (a b c d : Fin 16) : MicroWord :=
  uop ++ BitVec.ofFin (w := 4) a ++ BitVec.ofFin (w := 4) b ++ BitVec.ofFin (w := 4) c ++ BitVec.ofFin (w := 4) d

/-- The frame or micro-word of an instruction (30_encoding R47 to R49, R56). -/
def encode : Instr → Encoding
  | .init key nonce => .frame (opInit :: BitVec.ofNat 8 key.length :: BitVec.ofNat 8 nonce.length :: (key ++ nonce))
  | .encrypt data => .frame (opEncrypt :: data)
  | .decrypt data => .frame (opDecrypt :: data)
  | .ldmix => .micro 0x10000#20
  | .qr a b c d => .micro (microWord 2#4 a b c d)
  | .ffwd => .micro 0x30000#20
  | .ser => .micro 0x40000#20
  | .ctrinc => .micro 0x50000#20
  | .clrcur => .micro 0x60000#20
  | .xorb => .micro 0x70000#20

/-! ### Words of the opcode table -/

/-- The first `n` bytes of a number whose bit 0 is the least significant bit of the first byte. -/
def tableBytes : Nat → Nat → Frame
  | 0, _ => []
  | n + 1, w => BitVec.ofNat 8 w :: tableBytes n (w / 256)

/-- How many bytes a table frame is padded to with zeros: INIT has two length bytes after its opcode, a data command is
given one data byte (notes/assumptions/5.md). -/
def tableFrameLength (nbits w : Nat) : Nat :=
  max ((nbits + 7) / 8) (if w % 256 = 1 then 3 else 2)

/-- A row of 20 bits (24 in whole bytes) is a micro-word, any other a command frame; a number with a bit above the
twenty is no micro-word and is laid out as the reserved word 0 (notes/assumptions/5.md). -/
def tableEncoding (nbits w : Nat) : Encoding :=
  if nbits = 20 ∨ nbits = 24 then .micro (if w < 2 ^ 20 then BitVec.ofNat 20 w else 0#20)
  else .frame (tableBytes (tableFrameLength nbits w) w)

/-- What the decoder reads from a row's bits, numbered as the opcode table numbers them. -/
def decodeTableWord (nbits w : Nat) : Option Instr :=
  match decode (tableEncoding nbits w) with
  | .ok i => some i
  | .error _ => none

end Sys2Proof
end

