-- ==== Sys2Proof/Machine/Sequencer.lean ====
section
/-! DEFINITION. The block sequencer (spec/30_encoding.md R55 to R62): the GEN micro-program and how the next micro-word of
a command in progress is chosen (R59, spec/44_stream.md R110). -/

namespace Sys2Proof.Machine

/-! ### The GEN program (30 R58) -/

/-- The eight QR micro-words of one double-round. -/
def doubleRoundWords : List MicroWord :=
  [0x2048C#20, 0x2159D#20, 0x226AE#20, 0x237BF#20, 0x205AF#20, 0x216BC#20, 0x2278D#20, 0x2349E#20]

/-- `GEN[0]` to `GEN[84]`, read-only (30 R58). -/
def genProgram : List MicroWord :=
  0x10000#20 :: ((List.replicate 10 doubleRoundWords).flatten ++ [0x30000#20, 0x40000#20, 0x50000#20, 0x60000#20])

/-- XORB's micro-word, issued once per data byte and not part of GEN (30 R58). -/
def xorbWord : MicroWord := 0x70000#20

/-! ### Pseudo-instructions (30 R62) -/

/-- QR on a group, as an instruction. -/
def qrInstr (g : Group) : Instr := .qr g.1 g.2.1 g.2.2.1 g.2.2.2

/-- COLROUND. -/
def pseudoColround : List Instr := columnGroups.map qrInstr
/-- DIAGROUND. -/
def pseudoDiaground : List Instr := diagonalGroups.map qrInstr
/-- DROUND. -/
def pseudoDround : List Instr := pseudoColround ++ pseudoDiaground
/-- PERMUTE: DROUND ten times. -/
def pseudoPermute : List Instr := (List.replicate 10 pseudoDround).flatten
/-- BLOCK: `GEN[0..82]`. -/
def pseudoBlock : List Instr := .ldmix :: (pseudoPermute ++ [.ffwd, .ser])
/-- GEN: `GEN[0..84]`. -/
def pseudoGen : List Instr := pseudoBlock ++ [.ctrinc, .clrcur]
/-- KEYSTREAM n: ENCRYPT of `n` zero bytes (44_stream R116). -/
def pseudoKeystream (n : Nat) : List Instr := [.encrypt (List.replicate n 0#8)]
/-- BYTESTEP from a state: GEN where the cursor's test holds, then XORB (44_stream R110). -/
def pseudoByteStep (s : State) : List Instr := (if blockNeeded s then pseudoGen else []) ++ [.xorb]

/-! ### Sequencer control (30 R59, 44_stream R110) -/

/-- Issue the first micro-word of a byte step: GEN from its start where a block is needed, else XORB. -/
def issueByteStep (s : State) : State :=
  if blockNeeded s then { s with seq := 0#7, uir := genProgram[0]? } else { s with uir := some xorbWord }

/-- The micro-operation view of a data command after its two tests (30 R55): the data is in, the first micro-word issued.
`step` runs it from here one micro-word at a time. -/
def beginCommand (data : List Byte) (s : State) : State := issueByteStep (acceptData data s)

/-- After a micro-word of GEN: the next one, and after `GEN[84]` the index goes to 0 and the XORB of the byte step is
issued (30 R59). An index above 84 does not exist (notes/assumptions/12.md). -/
def advanceGen (s : State) : Result :=
  if s.seq.toNat < 84 then .next { s with seq := s.seq + 1#7, uir := genProgram[s.seq.toNat + 1]? }
  else if s.seq.toNat = 84 then .next { s with seq := 0#7, uir := some xorbWord }
  else .fault .sequencerOutOfRange

/-- After XORB: the next byte step, or the response where no data byte is left (44_stream R112). -/
def advanceByte (s : State) : Result :=
  if s.data = [] then .next (finishCommand s) else .next (issueByteStep s)

/-- What follows the micro-word `w` that has just taken effect. -/
def advance (w : MicroWord) (s : State) : Result :=
  if w = xorbWord then advanceByte s else advanceGen s

end Sys2Proof.Machine
end

