-- ==== Sys2Proof/Machine/Fetch.lean ====
section
/-! DEFINITION. Where the next instruction comes from and how it is run: a command frame at a command boundary
(spec/30_encoding.md R46 to R52), a micro-word of a command in progress (R55 to R60). -/

namespace Sys2Proof.Machine

/-- A command frame at a command boundary. -/
def runFrame (f : Frame) (s : State) : Host.Outcome State Fault Refusal :=
  match decodeFrame f with
  | .ok i => exec i s
  | .error _ => .next (raise .illegalCommand s)

/-- One micro-word of a command in progress. -/
def runMicro (w : MicroWord) (s : State) : Host.Outcome State Fault Refusal :=
  match decodeMicro w with
  | .ok i => andThen (exec i s) (advance w)
  | .error _ => .fault .reservedMicroWord

/-- What the host presents, taken at a command boundary. -/
def takeHost (s : State) : Host.Outcome State Fault Refusal :=
  match s.host with
  | [] => .next s
  | .frame f :: rest => runFrame f { s with host := rest }
  | .cutFrame _ :: rest => .next (hardwareReset { s with host := rest })
  | .rst :: rest => .next (hardwareReset { s with host := rest })

/-- Drop the resets the host would assert first: the instruction placed below is the very next thing to happen. -/
def withoutResets : List HostAction → List HostAction
  | .rst :: rest => withoutResets rest
  | as => as

/-- `s` at a command boundary with the frame `f` presented next. -/
def placeFrame (f : Frame) (s : State) : State := { s with host := .frame f :: s.host, uir := none }

/-- `s` inside a data command with the micro-word `w` issued next; a data byte is left, a zero one where `s` has none. -/
def placeMicro (w : MicroWord) (s : State) : State :=
  { s with host := withoutResets s.host, uir := some w, data := if s.data = [] then [0#8] else s.data }

end Sys2Proof.Machine
end

