-- ==== Sys2Proof/Machine/Step.lean ====
section
/-! DEFINITION. One step of the core. At a command boundary it takes the next thing the host presents: a frame is decoded
and executed as one atomic command (spec/20_memory.md R38, spec/92 D1), a frame that decodes to `ILLEGAL` is answered
(spec/60_exceptions.md R126), `rst` resets (spec/70 R140), and with nothing presented the core idles (spec/10_state.md
R10). Inside a command (`uir` holds a micro-word: the micro-operation view, spec/30_encoding.md R55) it runs that
micro-word and lets the sequencer issue the next; only `rst` interrupts it. -/

namespace Sys2Proof.Machine

/-- One step. -/
def step (s : State) : Host.Outcome State Fault Refusal :=
  match s.host, s.uir with
  | .rst :: rest, _ => .next (hardwareReset { s with host := rest })
  | _, some w => runMicro w s
  | _, none => takeHost s

/-- `s` with an instruction where `step` takes its next one (notes/assumptions/5.md): a frame is what the host presents
next at a command boundary; a micro-word is what the sequencer has issued inside a data command. -/
def State.withFetchWord (s : State) (nbits w : Nat) : State :=
  match tableEncoding nbits w with
  | .frame f => placeFrame f s
  | .micro u => placeMicro u s

end Sys2Proof.Machine
end

