-- ==== Sys2Proof/Machine/Assembly.lean ====
section
/-! DEFINITION. The line syntax of spec/30_encoding.md R61, as lists of characters: how an instruction and a response are
written. It is text about the core; no step uses it. -/

namespace Sys2Proof.Machine

/-- A hexadecimal digit. -/
def hexDigit (n : BitVec 4) : Char :=
  if n.toNat < 10 then Char.ofNat (48 + n.toNat) else Char.ofNat (87 + n.toNat)

/-- A byte as a hexadecimal digit pair. -/
def hexByte (b : Byte) : List Char := [hexDigit (b.extractLsb' 4 4), hexDigit (b.extractLsb' 0 4)]

/-- A byte sequence, first byte first, the pairs separated by one space (R61 ignores spaces; notes/assumptions/18.md). -/
def hexBytes : List Byte → List Char
  | [] => []
  | [b] => hexByte b
  | b :: rest => hexByte b ++ ' ' :: hexBytes rest

/-- An index 0 to 15 in decimal. -/
def decimalIndex (i : Fin 16) : List Char :=
  if i.val < 10 then [Char.ofNat (48 + i.val)] else ['1', Char.ofNat (38 + i.val)]

/-- An instruction as one line (R61). -/
def assembly : Instr → List Char
  | .init key nonce =>
    ['I','N','I','T',' ','k','e','y','='] ++ hexBytes key ++ [' ','n','o','n','c','e','='] ++ hexBytes nonce
  | .encrypt data => ['E','N','C','R','Y','P','T',' '] ++ hexBytes data
  | .decrypt data => ['D','E','C','R','Y','P','T',' '] ++ hexBytes data
  | .ldmix => ['L','D','M','I','X']
  | .qr a b c d =>
    ['Q','R',' '] ++ decimalIndex a ++ ',' :: decimalIndex b ++ ',' :: decimalIndex c ++ ',' :: decimalIndex d
  | .ffwd => ['F','F','W','D']
  | .ser => ['S','E','R']
  | .ctrinc => ['C','T','R','I','N','C']
  | .clrcur => ['C','L','R','C','U','R']
  | .xorb => ['X','O','R','B']

/-- The name of an error, as the response line writes it (R50, R61). -/
def errorName : ErrorKind → List Char
  | .invalidKeyLength => ['I','n','v','a','l','i','d','K','e','y','L','e','n','g','t','h']
  | .invalidNonceLength => ['I','n','v','a','l','i','d','N','o','n','c','e','L','e','n','g','t','h']
  | .emptyInput => ['E','m','p','t','y','I','n','p','u','t']
  | .notReady => ['N','o','t','R','e','a','d','y']
  | .illegalCommand => ['I','l','l','e','g','a','l','C','o','m','m','a','n','d']

/-- `OK` and the output bytes, or `ERR` and the error's name (R61, after the arrow). -/
def responseLine : Except ErrorKind (List Byte) → List Char
  | .ok out => ['O','K',' '] ++ hexBytes out
  | .error e => ['E','R','R',' '] ++ errorName e

end Sys2Proof.Machine
end

