-- ==== Sys2Proof/Safety.lean ====
section
/-! DEFINITION. The terms claims are stated in: command boundaries, invariants (spec/10_state.md R26), the keystream of a
stream and its position (R18, spec/44_stream.md R114), the start-of-run premises of spec/70_reset_and_hazards.md R157. -/

namespace Sys2Proof.Machine

/-! ### The block counter as a number -/

/-- The number of counter values: `2^64` classic, `2^32` IETF (10_state R18). -/
def counterRange : Variant → Nat
  | .classic => 2 ^ 64
  | .ietf => 2 ^ 32

/-- The block counter held in the state words (10_state R14, R18). -/
def counterValue : Variant → Words → Nat
  | .classic, s => s[12].toNat + 2 ^ 32 * s[13].toNat
  | .ietf, s => s[12].toNat

/-- The state words with their counter field set to `n` mod `2^W`, all others kept (42_block_function R95). -/
def withCounter : Variant → Words → Nat → Words
  | .classic, s, n => (s.set 12 (BitVec.ofNat 32 n)).set 13 (BitVec.ofNat 32 (n / 2 ^ 32))
  | .ietf, s, n => s.set 12 (BitVec.ofNat 32 n)

/-! ### The keystream (42_block_function R95, 44_stream R114) -/

/-- Block `n` of the stream whose key, nonce and constants stand in `base`. -/
def blockAt (v : Variant) (base : Words) (n : Nat) : Block := blockFunction (withCounter v base n)

/-- Byte `k` of that stream. -/
def keystreamByte (v : Variant) (base : Words) (k : Nat) : Byte :=
  (blockAt v base (k / 64))[k % 64]'(Nat.mod_lt k (by decide))

/-- The keystream byte that the `i`-th data byte after the state `s` meets: what is left of `B`, then the blocks the
counter names (10_state R18, R26). -/
def upcomingByte (s : State) (i : Nat) : Byte :=
  if s.cursor = 0#7 then keystreamByte s.variant s.S (64 * counterValue s.variant s.S + i)
  else if h : s.cursor.toNat + i < 64 then s.B[s.cursor.toNat + i]
  else keystreamByte s.variant s.S (64 * counterValue s.variant s.S + (s.cursor.toNat + i - 64))

/-- `data` combined byte by byte with the bytes `ks`. -/
def xorWith (ks : Nat → Byte) (data : List Byte) : List Byte := data.mapIdx fun i x => x ^^^ ks i

/-! ### Stream position (10_state R18) -/

/-- `ceil(n / 64)`. -/
def ceilBlocks (n : Nat) : Nat := (n + 63) / 64

/-- The cursor after `n` bytes since INIT (10_state R18). -/
def cursorAt (n : Nat) : Nat := if n = 0 then 0 else n - 64 * (ceilBlocks n - 1)

/-- How many GEN runs a command of `n` bytes makes from cursor `c` (44_stream R112). -/
def genRuns (c n : Nat) : Nat :=
  if c = 0 then ceilBlocks n else if c + n ≤ 64 then 0 else ceilBlocks (n - (64 - c))

/-- The cursor a command of `n` bytes leaves, from cursor `c` (44_stream R111). -/
def cursorAfterBytes (c n : Nat) : Nat := if n = 0 then c else (c + n - 1) % 64 + 1

/-! ### Boundaries and invariants -/

/-- No command in progress (10_state R21, R23). -/
abbrev AtBoundary (s : State) : Prop := s.uir = none ∧ s.data = [] ∧ s.out = [] ∧ s.seq = 0#7

/-- The four constants stand in `S[0..3]` (10_state R12). -/
abbrev ConstantsLoaded (s : State) : Prop :=
  s.S[0] = 0x61707865#32 ∧ s.S[1] = 0x3320646e#32 ∧ s.S[2] = 0x79622d32#32 ∧ s.S[3] = 0x6b206574#32

/-- The micro-word issued inside a command is the one its place calls for: XORB with a byte of `B` to read, or `GEN[seq]`
while a block is needed; a data byte is left (30_encoding R59, 44_stream R108, R110). -/
abbrev MidCommand (s : State) (w : MicroWord) : Prop :=
  s.ready = true ∧ s.data ≠ [] ∧
    ((w = xorbWord ∧ s.seq = 0#7 ∧ s.cursor.toNat ≤ 63) ∨
      (genProgram[s.seq.toNat]? = some w ∧ (s.cursor = 0#7 ∨ s.cursor = 64#7)))

/-- What holds of every state a run passes through, inside commands as well (10_state R12, R17, R21, R26). -/
def State.StepInv (s : State) : Prop :=
  s.cursor.toNat ≤ 64 ∧ s.seq.toNat ≤ 84 ∧ (s.ready = true → ConstantsLoaded s) ∧
    (s.uir = none → AtBoundary s) ∧ (∀ w, s.uir = some w → MidCommand s w)

/-- The block buffer holds the block before the one the counter names (10_state R26 (f)). -/
def State.BlockInv (s : State) : Prop :=
  s.ready = true → s.cursor ≠ 0#7 →
    s.B = blockAt s.variant s.S (counterValue s.variant s.S + counterRange s.variant - 1)

/-! ### Named premises (70_reset_and_hazards R157) -/

/-- Just after `rst`. -/
abbrev AfterReset (s : State) : Prop :=
  s.ready = false ∧ s.variant = .classic ∧ s.cursor = 0#7 ∧ AtBoundary s

/-- `n` bytes processed since an INIT that selected `v` and loaded `base` (10_state R18, R26; `n = 0` is `Fresh`). -/
def AtPosition (v : Variant) (base : Words) (n : Nat) (s : State) : Prop :=
  AtBoundary s ∧ s.ready = true ∧ s.variant = v ∧ s.S = withCounter v base (ceilBlocks n) ∧
    s.cursor.toNat = cursorAt n ∧
    (n ≠ 0 → s.B = blockAt v base (ceilBlocks n - 1) ∧ s.M = resultWords (withCounter v base (ceilBlocks n - 1)))

/-- The key and the nonce are legal, select `v` and load `base` (40_init R66 to R68). -/
def Loads (key nonce : List Byte) (v : Variant) (base : Words) : Prop :=
  key.length = 32 ∧ variantOfNonce nonce.length = some v ∧ loadState v key nonce = some base

/-- Just after a successful INIT. -/
def Fresh (key nonce : List Byte) (s : State) : Prop :=
  ∃ v base, Loads key nonce v base ∧ AtPosition v base 0 s

/-- At most `2^W` blocks generated since INIT (R150). -/
def InRange (v : Variant) (n : Nat) : Prop := ceilBlocks n ≤ counterRange v

/-- The next thing the host does is not `rst`: nothing cuts a command in progress short (R140). -/
abbrev NoResetNext (s : State) : Prop := s.host.head? ≠ some HostAction.rst

/-! ### Runs over abstract commands (30_encoding R54) -/

/-- ENCRYPT or DECRYPT of the same data. -/
def dataCommand (enc : Bool) (data : List Byte) : Instr := if enc then .encrypt data else .decrypt data

/-- A list of instructions one after the other. -/
def execAll : List Instr → State → Result
  | [], s => .next s
  | i :: is, s => andThen (exec i s) (execAll is)

/-- A stream's data commands: which of the two each is, and its data. -/
def dataCommands (ps : List (Bool × List Byte)) : List Instr := ps.map fun p => dataCommand p.1 p.2

/-- How many bytes they carry. -/
def totalBytes (ps : List (Bool × List Byte)) : Nat := (ps.map fun p => p.2.length).sum

end Sys2Proof.Machine
end

