-- ==== Sys2Proof/Certificates/Slice0/Obligations.lean ====
section
/-! DEFINITION. The statements for the provers, each from a rule of spec/ named in its docstring. -/

open Sys2Proof Sys2Proof.Machine

/-! ### Word operations and codec -/

/-- 42 R80 to R82: ADD32 is addition mod `2^32`, commutative, associative, undone by subtraction; XOR32 works bit by bit and
is self-inverse; ROTL32 is the shift formula, moves bit `k` to bit `(k + n) mod 32`, and `rotl32(·, 32 - n)` undoes it. -/
def Obligations.WordOperationLaws : Prop :=
  (∀ a b : Word, (add32 a b).toNat = (a.toNat + b.toNat) % 2 ^ 32 ∧ add32 a b = add32 b a ∧ add32 a b - b = a ∧
      ∀ c, add32 (add32 a b) c = add32 a (add32 b c)) ∧
    (∀ a b : Word, xor32 (xor32 a b) b = a ∧
      ∀ k, k < 32 → (xor32 a b).getLsbD k = (a.getLsbD k ^^ b.getLsbD k)) ∧
    (∀ (w : Word) (n : Nat), 0 < n → n < 32 →
      (rotl32 w n).toNat = ((w.toNat * 2 ^ n) % 2 ^ 32 ||| w.toNat / 2 ^ (32 - n)) ∧
      rotl32 (rotl32 w n) (32 - n) = w ∧
      ∀ k, k < 32 → (rotl32 w n).getLsbD ((k + n) % 32) = w.getLsbD k)

/-- 41 R75: DEC32LE combines four bytes at any offset, least significant first. Past the end it has no result: the option result
that R78 allows a model (the model's choice, notes/assumptions/11.md). -/
def Obligations.CodecDecodesLittleEndian : Prop :=
  (∀ (bytes : List Byte) (offset : Nat) (h : offset + 4 ≤ bytes.length), ∃ w, dec32le bytes offset = some w ∧
      w.toNat = bytes[offset].toNat + 2 ^ 8 * bytes[offset + 1].toNat + 2 ^ 16 * bytes[offset + 2].toNat +
        2 ^ 24 * bytes[offset + 3].toNat) ∧
    ∀ (bytes : List Byte) (offset : Nat), bytes.length < offset + 4 → dec32le bytes offset = none

/-- 41 R76, R77: ENC32LE emits `w[7:0], w[15:8], w[23:16], w[31:24]`, and the two functions undo each other. -/
def Obligations.CodecInverse : Prop :=
  (∀ (w : Word) (j : Nat) (h : j < 4), (enc32le w)[j].toNat = w.toNat / 2 ^ (8 * j) % 256) ∧
    (∀ w : Word, dec32le (enc32le w).toList 0 = some w) ∧
    ∀ q : Vector Byte 4, (dec32le q.toList 0).map enc32le = some q

/-! ### The Block Function -/

/-- 42 R84: QR on pairwise distinct indices completes; on the four words it is the twelve assignments, the other twelve words
of `M` and all other state are unchanged. -/
def Obligations.QuarterRoundLanes : Prop :=
  ∀ (a b c d : Fin 16) (s : State), [a, b, c, d].Nodup →
    ∃ t, exec (.qr a b c d) s = .next t ∧ t = { s with M := t.M } ∧
      (∀ i : Fin 16, i ∉ [a, b, c, d] → t.M[i] = s.M[i]) ∧
      let a1 := s.M[a] + s.M[b]
      let d1 := (s.M[d] ^^^ a1).rotateLeft 16
      let c1 := s.M[c] + d1
      let b1 := (s.M[b] ^^^ c1).rotateLeft 12
      let a2 := a1 + b1
      let d2 := (d1 ^^^ a2).rotateLeft 8
      let c2 := c1 + d2
      let b2 := (b1 ^^^ c2).rotateLeft 7
      t.M[a] = a2 ∧ t.M[b] = b2 ∧ t.M[c] = c2 ∧ t.M[d] = d2

/-- 30 R57, 93 U4: a QR with a repeated index stops, by name, and its micro-word is reserved. -/
def Obligations.RepeatedIndexStops : Prop :=
  ∀ (a b c d : Fin 16) (s : State), ¬[a, b, c, d].Nodup →
    exec (.qr a b c d) s = .fault .reservedMicroWord ∧
      decodeMicro (microWord 2#4 a b c d) = .error .repeatedIndex

/-- 42 R84: QR is a bijection of the sixteen words (of the four it writes, the others being kept). -/
def Obligations.QuarterRoundBijective : Prop :=
  ∀ a b c d : Fin 16, [a, b, c, d].Nodup → Function.Bijective fun m => quarterRound m a b c d

/-- 42 R86: the four groups of a round are disjoint and cover all indices; the four QRs of a round give the same result in any
order; a column round and a diagonal round do not commute. -/
def Obligations.RoundLanesIndependent : Prop :=
  (∀ gs, gs.Perm columnGroups → qrGroups gs = qrGroups columnGroups) ∧
    (∀ gs, gs.Perm diagonalGroups → qrGroups gs = qrGroups diagonalGroups) ∧
    (∀ gs ∈ [columnGroups, diagonalGroups],
      ((gs.flatMap fun g => [g.1, g.2.1, g.2.2.1, g.2.2.2]).Perm (List.finRange 16))) ∧
    ∃ m, qrGroups diagonalGroups (qrGroups columnGroups m) ≠ qrGroups columnGroups (qrGroups diagonalGroups m)

/-- 42 R90: PERMUTE is a bijection of the sixteen words, fixes the all-zero buffer, and neither reads nor writes `S`. -/
def Obligations.PermuteProperties : Prop :=
  Function.Bijective permute ∧ permute (Vector.replicate 16 0#32) = Vector.replicate 16 0#32 ∧
    ∀ s s' : State, s.M = s'.M → (permuteMix s).M = (permuteMix s').M ∧ (permuteMix s).S = s.S

/-- 42 R88: LDMIX completes in every state, copies all of `S` to `M`, and changes nothing else. -/
def Obligations.LdmixCopiesState : Prop :=
  ∀ s : State, ∃ t, exec .ldmix s = .next t ∧ t = { s with M := t.M } ∧
    (∀ i : Fin 16, t.M[i] = s.S[i]) ∧ decodeMicro 0x10000#20 = .ok .ldmix

/-- 42 R91: FFWD completes in every state, adds `S[i]` into `M[i]` mod `2^32`, and changes nothing else. -/
def Obligations.FfwdAddsState : Prop :=
  ∀ s : State, ∃ t, exec .ffwd s = .next t ∧ t = { s with M := t.M } ∧
    (∀ i : Fin 16, (t.M[i]).toNat = ((s.M[i]).toNat + (s.S[i]).toNat) % 2 ^ 32) ∧ decodeMicro 0x30000#20 = .ok .ffwd

/-- 42 R92, 20 R32: SER completes in every state; byte `4*i + j` of `B` becomes bits `8*j+7` to `8*j` of `M[i]`; nothing else
changes. -/
def Obligations.SerWritesBlock : Prop :=
  ∀ s : State, ∃ t, exec .ser s = .next t ∧ t = { s with B := t.B } ∧
    (∀ (i j : Nat) (hi : i < 16) (hj : j < 4), t.B[4 * i + j] = (s.M[i]).extractLsb' (8 * j) 8) ∧
    decodeMicro 0x40000#20 = .ok .ser

/-- 42 R93, R94, 44 R109: GEN's net effect: `B` is BLOCK of the words `S` held on entry, whatever the variant, the counter goes
up by one with the variant's wraparound, `cursor` and `seq` are 0, `M` holds the result words, all else is unchanged. -/
def Obligations.GenNetEffect : Prop :=
  ∀ s : State, gen s = { s with
    S := withCounter s.variant s.S (counterValue s.variant s.S + 1)
    M := resultWords s.S
    B := blockFunction s.S
    cursor := 0#7
    seq := 0#7 }

/-- 42 R93: byte `4*i + j` of BLOCK is byte `j` of `PERMUTE(S)[i] +32 S[i]`. -/
def Obligations.BlockBytes : Prop :=
  ∀ (s : Words) (i j : Nat) (hi : i < 16) (hj : j < 4),
    ((blockFunction s)[4 * i + j]).toNat =
      (((permute s)[i]).toNat + (s[i]).toNat) % 2 ^ 32 / 2 ^ (8 * j) % 256

/-! ### The counter -/

/-- 43 R100: CTRINC completes in every state: `S[12]` goes up by 1 mod `2^32`; `S[13]` goes up by 1 exactly in the classic variant
and when the new `S[12]` is 0; everything else is unchanged; it is `GEN[83]`. -/
def Obligations.CtrincCarries : Prop :=
  ∀ s : State, ∃ t, exec .ctrinc s = .next t ∧ t = { s with S := t.S } ∧
    t.S[12] = s.S[12] + 1#32 ∧
    t.S[13] = (if s.variant = .classic ∧ s.S[12] = 0xFFFFFFFF#32 then s.S[13] + 1#32 else s.S[13]) ∧
    (∀ i : Fin 16, i ≠ 12 → i ≠ 13 → t.S[i] = s.S[i]) ∧ decodeMicro 0x50000#20 = .ok .ctrinc ∧
    genProgram[83]? = some 0x50000#20

/-- 43 R102, R103: CTRINC adds 1 to the counter mod `2^W`, and `2^W` of them give the state words back. -/
def Obligations.CounterWraps : Prop :=
  (∀ (v : Variant) (s : Words),
      counterValue v (incrementCounter v s) = (counterValue v s + 1) % counterRange v) ∧
    ∀ (v : Variant) (s : Words), Nat.iterate (incrementCounter v) (counterRange v) s = s

/-! ### The stream's micro-operations -/

/-- 44 R107: CLRCUR completes in every state, sets `cursor` to 0 and writes nothing else; it is the last micro-word of GEN
and occurs there once. -/
def Obligations.ClrcurClearsCursor : Prop :=
  ∀ s : State, ∃ t, exec .clrcur s = .next t ∧ t = { s with cursor := t.cursor } ∧ t.cursor.toNat = 0 ∧
    decodeMicro 0x60000#20 = .ok .clrcur ∧ genProgram.getLast? = some 0x60000#20 ∧
    genProgram.count 0x60000#20 = 1

/-- 44 R108: with a data byte and `cursor <= 63`, XORB completes: it takes the byte `x`, emits `x ^ B[cursor]`, adds 1 to
`cursor`, and writes nothing else; it is not part of GEN. -/
def Obligations.XorbEmitsByte : Prop :=
  ∀ (s : State) (x : Byte) (rest : List Byte) (_ : s.data = x :: rest) (h : s.cursor.toNat ≤ 63),
    ∃ t, exec .xorb s = .next t ∧ t = { s with data := rest, out := t.out, cursor := t.cursor } ∧
      t.out = s.out ++ [x ^^^ s.B[s.cursor.toNat]] ∧ t.cursor.toNat = s.cursor.toNat + 1 ∧
      decodeMicro 0x70000#20 = .ok .xorb ∧ 0x70000#20 ∉ genProgram

/-- 44 R108's precondition: XORB without a data byte, or with `cursor` above 63, stops by name (the model's choice,
notes/assumptions/10.md). -/
def Obligations.XorbStopsOutsidePrecondition : Prop :=
  ∀ s : State, (s.data = [] → exec .xorb s = .fault .noDataByte) ∧
    (s.data ≠ [] → 64 ≤ s.cursor.toNat → exec .xorb s = .fault .blockIndexOutOfRange)

/-! ### INIT -/

/-- 40 R65 to R68, R71: a 32-byte key and an 8-byte nonce: INIT completes in every state, with the classic layout. -/
def Obligations.InitLoadsClassic : Prop :=
  ∀ (key nonce : List Byte) (s : State) (hk : key.length = 32) (hn : nonce.length = 8),
    ∃ t, exec (.init key nonce) s = .next t ∧
      t = { s with S := t.S, variant := .classic, cursor := 0#7, ready := true, rsp := s.rsp ++ [[0x00#8]] } ∧
      ConstantsLoaded t ∧
      (∀ (i : Nat) (hi : i < 8), (t.S[4 + i]).toNat = key[4 * i].toNat + 2 ^ 8 * key[4 * i + 1].toNat +
        2 ^ 16 * key[4 * i + 2].toNat + 2 ^ 24 * key[4 * i + 3].toNat) ∧
      t.S[12] = 0#32 ∧ t.S[13] = 0#32 ∧
      (∀ (j : Nat) (hj : j < 2), (t.S[14 + j]).toNat = nonce[4 * j].toNat + 2 ^ 8 * nonce[4 * j + 1].toNat +
        2 ^ 16 * nonce[4 * j + 2].toNat + 2 ^ 24 * nonce[4 * j + 3].toNat)

/-- 40 R65 to R68, R71: a 32-byte key and a 12-byte nonce: INIT completes in every state, with the IETF layout. -/
def Obligations.InitLoadsIetf : Prop :=
  ∀ (key nonce : List Byte) (s : State) (hk : key.length = 32) (hn : nonce.length = 12),
    ∃ t, exec (.init key nonce) s = .next t ∧
      t = { s with S := t.S, variant := .ietf, cursor := 0#7, ready := true, rsp := s.rsp ++ [[0x00#8]] } ∧
      ConstantsLoaded t ∧
      (∀ (i : Nat) (hi : i < 8), (t.S[4 + i]).toNat = key[4 * i].toNat + 2 ^ 8 * key[4 * i + 1].toNat +
        2 ^ 16 * key[4 * i + 2].toNat + 2 ^ 24 * key[4 * i + 3].toNat) ∧
      t.S[12] = 0#32 ∧
      (∀ (j : Nat) (hj : j < 3), (t.S[13 + j]).toNat = nonce[4 * j].toNat + 2 ^ 8 * nonce[4 * j + 1].toNat +
        2 ^ 16 * nonce[4 * j + 2].toNat + 2 ^ 24 * nonce[4 * j + 3].toNat)

/-- 40 R66, R69, 60 R122, R123: a key that is not 32 bytes is `InvalidKeyLength` whatever the nonce; a nonce that is neither 8
nor 12 bytes is `InvalidNonceLength`; either answers its one status byte, clears `ready` and changes nothing else. -/
def Obligations.InitRejectsLengths : Prop :=
  ∀ (key nonce : List Byte) (s : State),
    (key.length ≠ 32 →
      exec (.init key nonce) s = .next { s with ready := false, rsp := s.rsp ++ [[0x01#8]] }) ∧
    (key.length = 32 → nonce.length ≠ 8 → nonce.length ≠ 12 →
      exec (.init key nonce) s = .next { s with ready := false, rsp := s.rsp ++ [[0x02#8]] })

/-- 20 R36: the same INIT issued twice in a row leaves the same state as once (its second response apart). -/
def Obligations.InitIdempotent : Prop :=
  ∀ (key nonce : List Byte) (s t u : State), exec (.init key nonce) s = .next t → exec (.init key nonce) t = .next u →
    u = { t with rsp := u.rsp }

/-! ### ENCRYPT and DECRYPT -/

/-- 60 R124, R125, 44 R112, R113: with `ready = 0` both commands answer `NotReady`, also on empty data; with `ready = 1` and empty
data they answer `EmptyInput`; nothing else changes. -/
def Obligations.DataCommandErrors : Prop :=
  ∀ (enc : Bool) (data : List Byte) (s : State),
    (s.ready = false → exec (dataCommand enc data) s = .next { s with rsp := s.rsp ++ [[0x04#8]] }) ∧
    (s.ready = true → exec (dataCommand enc []) s = .next { s with rsp := s.rsp ++ [[0x03#8]] })

/-- 44 R112, R113: at a command boundary with `ready = 1` and non-empty data, ENCRYPT and DECRYPT complete: the response is
`00` and the data XORed with the coming keystream bytes; the counter has advanced by the number of GEN runs, `cursor`, `B` and
`M` are those of the last byte, and nothing else changes. -/
def Obligations.DataCommandCompletes : Prop :=
  ∀ (enc : Bool) (data : List Byte) (s : State), AtBoundary s → s.ready = true → s.cursor.toNat ≤ 64 → data ≠ [] →
    let runs := genRuns s.cursor.toNat data.length
    let counter := counterValue s.variant s.S
    ∃ t, exec (dataCommand enc data) s = .next t ∧
      t = { s with S := t.S, M := t.M, B := t.B, cursor := t.cursor,
                   rsp := s.rsp ++ [0x00#8 :: xorWith (upcomingByte s) data] } ∧
      t.S = withCounter s.variant s.S (counter + runs) ∧
      t.cursor.toNat = cursorAfterBytes s.cursor.toNat data.length ∧
      (runs = 0 → t.M = s.M ∧ t.B = s.B) ∧
      (runs ≠ 0 → t.M = resultWords (withCounter s.variant s.S (counter + runs - 1)) ∧
        t.B = blockAt s.variant s.S (counter + runs - 1))

/-- 44 R111: a byte step from a legal cursor with a data byte completes; the cursor goes 0 to 1, `k` to `k + 1`, and 64 to 1. -/
def Obligations.CursorEvolution : Prop :=
  ∀ s : State, s.data ≠ [] → s.cursor.toNat ≤ 64 →
    ∃ t, byteStep s = .next t ∧
      t.cursor.toNat = (if s.cursor.toNat = 64 then 1 else s.cursor.toNat + 1) ∧
      (1 ≤ s.cursor.toNat → s.cursor.toNat ≤ 63 → t.S = s.S ∧ t.M = s.M ∧ t.B = s.B)

/-- 20 R38 (d): byte `i` of the output depends only on byte `i` of the data and on the state. -/
def Obligations.OutputByteCausal : Prop :=
  ∀ (enc : Bool) (d d' : List Byte) (s t t' : State) (i : Nat), AtBoundary s → s.ready = true → s.cursor.toNat ≤ 64 →
    i < d.length → i < d'.length → d[i]? = d'[i]? →
    exec (dataCommand enc d) s = .next t → exec (dataCommand enc d') s = .next t' →
    ∃ o o', t.rsp = s.rsp ++ [0x00#8 :: o] ∧ t'.rsp = s.rsp ++ [0x00#8 :: o'] ∧
      o.length = d.length ∧ o'.length = d'.length ∧ o[i]? = o'[i]?

/-! ### Laws of the stream -/

/-- 70 R157, 40 R70: a successful INIT, issued in any state at a command boundary, puts the stream at position 0. -/
def Obligations.InitStartsStream : Prop :=
  ∀ (key nonce : List Byte) (s : State), AtBoundary s → key.length = 32 → nonce.length = 8 ∨ nonce.length = 12 →
    ∃ t v base, exec (.init key nonce) s = .next t ∧ Loads key nonce v base ∧ AtPosition v base 0 t

/-- 44 R114, 10 R18, R26: at position `p` of a stream a data command of non-empty `data` returns `data[i] ^ ks[p + i]` and
leaves the stream at position `p + len(data)`: counter `ceil(n / 64) mod 2^W`, cursor `n - 64 * (ceil(n / 64) - 1)`, `B` the
block before the counter. -/
def Obligations.StreamPositionAdvances : Prop :=
  ∀ (v : Variant) (base : Words) (p : Nat) (enc : Bool) (data : List Byte) (s : State),
    AtPosition v base p s → data ≠ [] →
    ∃ t, exec (dataCommand enc data) s = .next t ∧ AtPosition v base (p + data.length) t ∧
      t.rsp = s.rsp ++ [0x00#8 :: xorWith (fun i => keystreamByte v base (p + i)) data]

/-- 43 R105: 4096 bytes after an INIT with an 8-byte nonce leave `S[12] = 40`, `S[13] = 0`, `cursor = 64`, and one byte more leaves
`S[12] = 41`, `cursor = 1`. -/
def Obligations.CounterAfter4096Bytes : Prop :=
  ∀ (key nonce data : List Byte) (enc : Bool) (x : Byte) (s : State), AtBoundary s → key.length = 32 → nonce.length = 8 →
    data.length = 4096 →
    ∃ t u, execAll [.init key nonce, dataCommand enc data] s = .next t ∧
      t.S[12] = 0x40#32 ∧ t.S[13] = 0#32 ∧ t.cursor.toNat = 64 ∧
      execAll [.init key nonce, dataCommand enc (data ++ [x])] s = .next u ∧
      u.S[12] = 0x41#32 ∧ u.S[13] = 0#32 ∧ u.cursor.toNat = 1

/-- 44 R115: any number of non-empty data commands, ENCRYPT and DECRYPT in any mixture, give the concatenated output of the one
command on the concatenated data, and the same state (the response frames apart); an empty piece answers `EmptyInput` and changes
nothing. -/
def Obligations.SplitInvariance : Prop :=
  ∀ (ps : List (Bool × List Byte)) (enc : Bool) (s : State), AtBoundary s → s.ready = true → s.cursor.toNat ≤ 64 →
    (ps ≠ [] → (∀ p ∈ ps, p.2 ≠ []) →
      ∃ (t u : State) (outs : List (List Byte)), execAll (dataCommands ps) s = .next t ∧
        outs.map List.length = ps.map (fun p => p.2.length) ∧
        t.rsp = s.rsp ++ outs.map (fun o => 0x00#8 :: o) ∧
        exec (dataCommand enc (ps.flatMap fun p => p.2)) s = .next u ∧ u.rsp = s.rsp ++ [0x00#8 :: outs.flatten] ∧
        u = { t with rsp := u.rsp }) ∧
    exec (dataCommand enc []) s = .next { s with rsp := s.rsp ++ [[0x03#8]] }

/-- 44 R117, 60 R135: two cores given the same INIT and then the same number of bytes, however split, agree in `S`, `cursor`,
`variant`, `ready` and, after the first byte, in `B`; what one then encrypts the other decrypts. -/
def Obligations.RoundTripTwoCores : Prop :=
  ∀ (key nonce : List Byte) (ps qs : List (Bool × List Byte)) (d : List Byte) (s1 s2 : State),
    AtBoundary s1 → AtBoundary s2 → key.length = 32 → nonce.length = 8 ∨ nonce.length = 12 →
    (∀ p ∈ ps, p.2 ≠ []) → (∀ q ∈ qs, q.2 ≠ []) → totalBytes ps = totalBytes qs → d ≠ [] →
    ∃ t1 t2 u1 u2 c,
      execAll (.init key nonce :: dataCommands ps) s1 = .next t1 ∧
      execAll (.init key nonce :: dataCommands qs) s2 = .next t2 ∧
      t1.S = t2.S ∧ t1.cursor = t2.cursor ∧ t1.variant = t2.variant ∧ t1.ready = t2.ready ∧
      (totalBytes ps ≠ 0 → t1.B = t2.B) ∧
      exec (.encrypt d) t1 = .next u1 ∧ u1.rsp = t1.rsp ++ [0x00#8 :: c] ∧
      exec (.decrypt c) t2 = .next u2 ∧ u2.rsp = t2.rsp ++ [0x00#8 :: d]

/-- 44 R118 (b), 43 R102, R103: an 8-byte nonce and the 12-byte nonce of four zero bytes before it load the same words; the two
streams agree for blocks 0 to `2^32 - 1`, and from block `2^32` the classic counter has carried into `S[13]` where the IETF words
are back at the start. -/
def Obligations.VariantsAgreeUntilCarry : Prop :=
  ∀ (key nonce : List Byte), key.length = 32 → nonce.length = 8 →
    ∃ base, Loads key nonce .classic base ∧ Loads key ([0#8, 0#8, 0#8, 0#8] ++ nonce) .ietf base ∧
      (∀ n, n < 2 ^ 32 → blockAt .classic base n = blockAt .ietf base n) ∧
      withCounter .classic base (2 ^ 32) = base.set 13 1#32 ∧ withCounter .ietf base (2 ^ 32) = base

/-- 43 R103, R104: in the IETF variant the keystream repeats with period `2^38` bytes and nothing is raised: from a state at
position `p` and one at position `p + 2^38` of the same stream the same data command completes with the same response, and leaves
the same state words. -/
def Obligations.IetfKeystreamPeriod : Prop :=
  ∀ (base : Words) (p : Nat) (enc : Bool) (data : List Byte) (s s' : State), AtPosition .ietf base p s →
    AtPosition .ietf base (p + 2 ^ 38) s' → data ≠ [] →
    ∃ t t' out, exec (dataCommand enc data) s = .next t ∧ exec (dataCommand enc data) s' = .next t' ∧
      t.rsp = s.rsp ++ [0x00#8 :: out] ∧ t'.rsp = s'.rsp ++ [0x00#8 :: out] ∧ t'.S = t.S

/-- 70 R149: data encrypted twice from the same position of the same (key, nonce): the XOR of the two outputs is the XOR of the
two inputs. -/
def Obligations.NonceReuseRelatesOutputs : Prop :=
  ∀ (v : Variant) (base : Words) (p : Nat) (d d' : List Byte) (s s' : State), AtPosition v base p s →
    AtPosition v base p s' → d ≠ [] → d.length = d'.length →
    ∃ t t' o o', exec (.encrypt d) s = .next t ∧ exec (.encrypt d') s' = .next t' ∧
      t.rsp = s.rsp ++ [0x00#8 :: o] ∧ t'.rsp = s'.rsp ++ [0x00#8 :: o'] ∧
      List.zipWith (· ^^^ ·) o o' = List.zipWith (· ^^^ ·) d d'

/-! ### Who writes what -/

/-- 10 R12, R13, R15: no instruction but INIT writes `S[0..11]`, `S[14]`, `S[15]`, and in the IETF variant none writes `S[13]`. -/
def Obligations.KeyAndNonceOnlyByInit : Prop :=
  ∀ (i : Instr) (s t : State), (∀ key nonce, i ≠ .init key nonce) → exec i s = .next t →
    ∀ k : Fin 16, k ≠ 12 → (k ≠ 13 ∨ s.variant = .ietf) → t.S[k] = s.S[k]

/-- 10 R20: `variant` is written by INIT alone, `ready` only by INIT (reset apart); 10 R19: `B` only by SER and by the data commands
that run it; 10 R16: `M` only by LDMIX, QR, FFWD and those. -/
def Obligations.ControlBitsOnlyByInit : Prop :=
  ∀ (i : Instr) (s t : State), exec i s = .next t →
    ((∀ key nonce, i ≠ .init key nonce) → t.variant = s.variant ∧ t.ready = s.ready) ∧
    (i ≠ .ser → (∀ d, i ≠ .encrypt d) → (∀ d, i ≠ .decrypt d) → t.B = s.B) ∧
    (i ≠ .ldmix → i ≠ .ffwd → (∀ a b c d, i ≠ .qr a b c d) → (∀ d, i ≠ .encrypt d) → (∀ d, i ≠ .decrypt d) →
      t.M = s.M)

/-- 60 R121 (c), R126, 42 R93: no instruction touches what the host still presents, the responses already delivered, or the count
of resets; a response is only ever added at the end. -/
def Obligations.PortsKept : Prop :=
  ∀ (i : Instr) (s t : State), exec i s = .next t →
    t.host = s.host ∧ t.resets = s.resets ∧ ∃ gs, t.rsp = s.rsp ++ gs ∧ gs.length ≤ 1

/-! ### Encodings -/

/-- 30 R47 to R49, R56: decoding the encoding of a well-formed instruction gives it back, with every operand. -/
def Obligations.DecodeEncode : Prop :=
  ∀ i : Instr, i.wellFormed = true → decode (encode i) = .ok i

/-- 30 R46, R55: what decodes has one meaning: it is the encoding of the well-formed instruction it decodes to. -/
def Obligations.EncodeDecode : Prop :=
  ∀ (e : Encoding) (i : Instr), decode e = .ok i → encode i = e ∧ i.wellFormed = true

/-- 30 R51: a frame decodes to no command in exactly the four cases. -/
def Obligations.IllegalFramesExactly : Prop :=
  ∀ f : Frame, (∀ i, decodeFrame f ≠ .ok i) ↔
    f = [] ∨
    (∃ op rest, f = op :: rest ∧ (op.toNat = 0 ∨ 4 ≤ op.toNat)) ∨
    (f.head? = some 0x01#8 ∧ f.length < 3) ∨
    ∃ k n rest, f = 0x01#8 :: k :: n :: rest ∧ f.length ≠ 3 + k.toNat + n.toNat

/-- 30 R60: the reserved micro-words are exactly: `uop` 0 or 8 to F; operand bits set where `uop` is 1 or 3 to 7; a QR with a
repeated index. None is in GEN, and a step on one is the fault. -/
def Obligations.ReservedMicroWordsExactly : Prop :=
  (∀ w : MicroWord, (∀ i, decodeMicro w ≠ .ok i) ↔
    w.toNat / 2 ^ 16 = 0 ∨ 8 ≤ w.toNat / 2 ^ 16 ∨
    (w.toNat / 2 ^ 16 ≠ 2 ∧ w.toNat % 2 ^ 16 ≠ 0) ∨
    (w.toNat / 2 ^ 16 = 2 ∧
      ¬[w.toNat / 2 ^ 12 % 16, w.toNat / 2 ^ 8 % 16, w.toNat / 2 ^ 4 % 16, w.toNat % 16].Nodup)) ∧
    ∀ w : MicroWord, (∀ i, decodeMicro w ≠ .ok i) → w ∉ genProgram ∧
      ∀ s : State, NoResetNext s → s.uir = some w → step s = .fault .reservedMicroWord

/-- 95 D47, D49, D50, D51 to D57: sample words, written out from the encodings. -/
def Obligations.SampleEncodings : Prop :=
  decodeFrame [0x01#8, 0x00#8, 0x00#8] = .ok (.init [] []) ∧ decodeFrame [0x02#8] = .ok (.encrypt []) ∧
    decodeFrame [0x03#8, 0xaa#8] = .ok (.decrypt [0xaa#8]) ∧ decodeMicro 0x2048C#20 = .ok (.qr 0 4 8 12) ∧
    decodeMicro 0x2349E#20 = .ok (.qr 3 4 9 14) ∧ decodeMicro 0x10001#20 = .error .operandBits ∧
    decodeMicro 0x20012#20 = .error .repeatedIndex ∧ decodeMicro 0x80000#20 = .error .reservedUop

/-- 30 R58, R62: GEN has 85 micro-words; word `1 + 8*r + k` is the `k`-th QR word of the listed eight for `r = 0..9`; its decoding
is the expansion of the pseudo-instruction GEN. -/
def Obligations.GenProgramTable : Prop :=
  genProgram.length = 85 ∧ genProgram[0]? = some 0x10000#20 ∧
    (∀ r k : Nat, r < 10 → k < 8 → genProgram[1 + 8 * r + k]? =
      [0x2048C#20, 0x2159D#20, 0x226AE#20, 0x237BF#20, 0x205AF#20, 0x216BC#20, 0x2278D#20, 0x2349E#20][k]?) ∧
    genProgram[81]? = some 0x30000#20 ∧ genProgram[82]? = some 0x40000#20 ∧ genProgram[83]? = some 0x50000#20 ∧
    genProgram[84]? = some 0x60000#20 ∧ genProgram.map decodeMicro = pseudoGen.map Except.ok

/-! ### Steps -/

/-- 30 R46, 20 R38: at a command boundary a presented frame that decodes to an instruction makes `step` run exactly that
instruction, the frame being taken off the port. -/
def Obligations.StepRunsFrame : Prop :=
  ∀ (s : State) (f : Frame) (rest : List HostAction) (i : Instr), s.uir = none → s.host = .frame f :: rest →
    decodeFrame f = .ok i → step s = exec i { s with host := rest }

/-- 30 R51, 60 R126: an ill-formed frame is answered `IllegalCommand` in every state, `ready` or not, and changes nothing. -/
def Obligations.StepAnswersIllegal : Prop :=
  ∀ (s : State) (f : Frame) (rest : List HostAction) (e : Reject), s.uir = none → s.host = .frame f :: rest →
    decodeFrame f = .error e → step s = .next { s with host := rest, rsp := s.rsp ++ [[0x05#8]] }

/-- 30 R59, 44 R110, R112: inside a command `step` runs the instruction its issued micro-word decodes to; then, after XORB, the next
byte step is issued, or the response given where no data byte is left; after `GEN[seq]` the next word, and after `GEN[84]` the XORB. -/
def Obligations.StepRunsMicroWord : Prop :=
  ∀ (s t : State) (w : MicroWord) (i : Instr), NoResetNext s → s.uir = some w → decodeMicro w = .ok i →
    exec i s = .next t →
    (w = 0x70000#20 → t.data = [] → step s = .next
      { t with uir := none, data := [], out := [], rsp := t.rsp ++ [0x00#8 :: t.out] }) ∧
    (w = 0x70000#20 → t.data ≠ [] → step s = .next
      (if t.cursor.toNat = 0 ∨ t.cursor.toNat = 64 then { t with seq := 0#7, uir := some 0x10000#20 }
       else { t with uir := some 0x70000#20 })) ∧
    (w ≠ 0x70000#20 → t.seq.toNat < 84 → step s = .next
      { t with seq := t.seq + 1#7, uir := genProgram[t.seq.toNat + 1]? }) ∧
    (w ≠ 0x70000#20 → t.seq.toNat = 84 → step s = .next { t with seq := 0#7, uir := some 0x70000#20 })

/-- 70 R140, R141: `rst` in any state, also inside a command, answers nothing and leaves the reset values; so does a command cut
short at a command boundary; afterwards ENCRYPT and DECRYPT answer `NotReady`. -/
def Obligations.ResetFromAnyState : Prop :=
  ∀ (s : State) (rest : List HostAction),
    (s.host = .rst :: rest ∨ (s.uir = none ∧ ∃ f, s.host = .cutFrame f :: rest)) →
    ∃ t, step s = .next t ∧ AfterReset t ∧ t.rsp = s.rsp ∧ t.host = rest ∧
      ∀ (enc : Bool) (data : List Byte),
        exec (dataCommand enc data) t = .next { t with rsp := t.rsp ++ [[0x04#8]] }

/-- 10 R24: the values after reset, and (the model's choice, notes/assumptions/2.md) nothing in progress, presented or answered. -/
def Obligations.ResetValues : Prop :=
  State.reset.ready = false ∧ variantBit State.reset.variant = 0#1 ∧ State.reset.cursor = 0#7 ∧ State.reset.seq = 0#7 ∧
    State.reset.uir = none ∧ State.reset.host = [] ∧ State.reset.rsp = []

/-- 10 R10, 60 R127, R137: with no command in progress and nothing presented the core keeps all its state. -/
def Obligations.IdleKeepsState : Prop :=
  ∀ s : State, s.uir = none → s.host = [] → ∀ k, Host.Core.run core k s = .next s

/-- 30 R55, R59, 44 R109: from a needed block inside a command, 85 steps run the GEN micro-program one word at a time, with exactly
the effect of the atomic GEN, and leave the XORB of the byte step issued. -/
def Obligations.GenMicroProgramIsGen : Prop :=
  ∀ s : State, NoResetNext s → s.seq = 0#7 → s.uir = some 0x10000#20 →
    Host.Core.run core 85 s = .next { gen s with uir := some 0x70000#20 }

/-- 30 R55, 44 R112: the micro-operation view and the atomic command have the same result: running a command one micro-word at a
time takes 85 steps per GEN and one per byte and ends in the state of the atomic command, response included. -/
def Obligations.MicroViewEqualsAtomicCommand : Prop :=
  ∀ (enc : Bool) (data : List Byte) (s : State), AtBoundary s → NoResetNext s → s.ready = true →
    s.cursor.toNat ≤ 64 → data ≠ [] →
    ∃ t, exec (dataCommand enc data) s = .next t ∧
      Host.Core.run core (85 * genRuns s.cursor.toNat data.length + data.length) (beginCommand data s) = .next t

/-- 30 R50, 70 R155, 20 R38: a command frame at a command boundary is answered with exactly one response frame: `00` and as many
bytes as the data for a data command that succeeds, else one status byte, at most 05. -/
def Obligations.OneResponsePerFrame : Prop :=
  ∀ (s : State) (f : Frame) (rest : List HostAction), s.StepInv → s.uir = none → s.host = .frame f :: rest →
    ∃ t status out, step s = .next t ∧ t.rsp = s.rsp ++ [status :: out] ∧ t.host = rest ∧ t.uir = none ∧
      status.toNat ≤ 5 ∧
      ((f.head? = some 0x02#8 ∨ f.head? = some 0x03#8) → status = 0x00#8 → out.length + 1 = f.length) ∧
      (¬((f.head? = some 0x02#8 ∨ f.head? = some 0x03#8) ∧ status = 0x00#8) → out = [])

/-! ### Invariants -/

/-- 10 R26, 93 U4: from every state with the invariant, inside commands as well, a step answers a next state, never a fault or a
refusal, and the invariant holds there. -/
def Obligations.StepKeepsInvariant : Prop :=
  ∀ s : State, s.StepInv → ∃ t, step s = .next t ∧ t.StepInv

/-- 10 R24, R26: the invariants hold after reset. -/
def Obligations.InvariantAtReset : Prop := State.reset.StepInv ∧ State.reset.BlockInv

/-- 10 R26 (f): at every command boundary the block buffer, once a byte was processed, is the block before the one the counter
names; a step from a command boundary keeps this and ends at a command boundary. -/
def Obligations.BlockBufferInvariant : Prop :=
  ∀ s t : State, s.StepInv → s.uir = none → s.BlockInv → step s = .next t → t.uir = none ∧ t.BlockInv
end

