-- ==== Sys2Proof/Laws/Operands.lean ====
section
/-! SUPPORT. What the word operations and the Word Codec do. -/

namespace Sys2Proof.Machine

/-- `rotl32` is Lean's rotation, for the amounts the spec gives it. -/
theorem rotl32_eq_rotateLeft (w : Word) (n : Nat) (_h0 : 0 < n) (h : n < 32) : rotl32 w n = w.rotateLeft n := by
  rw [BitVec.rotateLeft_eq_rotateLeftAux_of_lt h]; rfl

/-- The value of four bytes, least significant first. -/
theorem wordOfBytes_toNat (b0 b1 b2 b3 : Byte) : (wordOfBytes b0 b1 b2 b3).toNat = b0.toNat + 2^8 * b1.toNat + 2^16*b2.toNat + 2^24*b3.toNat := by
  have h0 := b0.isLt; have h1 := b1.isLt; have h2 := b2.isLt; have h3 := b3.isLt
  simp only [wordOfBytes, BitVec.toNat_or, BitVec.toNat_shiftLeft, BitVec.toNat_setWidth]
  rw [Nat.mod_eq_of_lt (by omega : b0.toNat < 2^32), Nat.mod_eq_of_lt (by omega : b1.toNat < 2^32), Nat.mod_eq_of_lt (by omega : b2.toNat < 2^32), Nat.mod_eq_of_lt (by omega : b3.toNat < 2^32)]
  simp only [Nat.shiftLeft_eq]
  rw [Nat.mod_eq_of_lt (by omega), Nat.mod_eq_of_lt (by omega), Nat.mod_eq_of_lt (by omega)]
  have e1 : b0.toNat ||| b1.toNat * 2^8 = b0.toNat + 2^8 * b1.toNat := by
    rw [Nat.or_comm, Nat.mul_comm, ← Nat.two_pow_add_eq_or_of_lt (by omega)]; omega
  rw [e1]
  have e2 : (b0.toNat + 2^8 * b1.toNat) ||| b2.toNat * 2^16 = b0.toNat + 2^8*b1.toNat + 2^16 * b2.toNat := by
    rw [Nat.or_comm, Nat.mul_comm, ← Nat.two_pow_add_eq_or_of_lt (by omega)]; omega
  rw [e2]
  rw [Nat.or_comm, Nat.mul_comm, ← Nat.two_pow_add_eq_or_of_lt (by omega)]; omega

/-- DEC32LE inside its sequence. -/
theorem dec32le_of_le (bytes : List Byte) (off : Nat) (h : off + 4 ≤ bytes.length) :
    dec32le bytes off = some (wordOfBytes bytes[off] bytes[off+1] bytes[off+2] bytes[off+3]) := by
  have : bytes.drop off = bytes[off] :: bytes[off+1] :: bytes[off+2] :: bytes[off+3] :: bytes.drop (off+4) := by
    rw [List.drop_eq_getElem_cons (by omega), List.drop_eq_getElem_cons (by omega), List.drop_eq_getElem_cons (by omega), List.drop_eq_getElem_cons (by omega)]
  unfold dec32le; rw [this]

end Sys2Proof.Machine
end

