-- ==== Sys2Proof/Laws/BlockFunction.lean ====
section
/-! SUPPORT. What one line of the quarter-round does, and PERMUTE as an iteration. -/

namespace Sys2Proof.Machine

/-- Sixteen words agree where every index agrees. -/
theorem words_ext {m m' : Words} (h : ∀ i : Fin 16, m[i] = m'[i]) : m = m' := by
  apply Vector.ext; intro i hi; exact h ⟨i, hi⟩

/-- The test on a QR is that its indices are pairwise distinct. -/
theorem distinctIndices_iff (a b c d : Fin 16) : distinctIndices a b c d = true ↔ [a,b,c,d].Nodup := by
  simp [distinctIndices]; tauto

/-- Every word after one line of the quarter-round. -/
theorem arxLine_get (m : Words) (x y z : Fin 16) (n : Nat) (hn : 0 < n) (hn' : n < 32) (h : x ≠ z) (i : Fin 16) : (arxLine m x y z n)[i] = if i = z then (m[z] ^^^ (m[x] + m[y])).rotateLeft n else if i = x then m[x] + m[y] else m[i] := by
  have hxz : ¬ x.val = z.val := fun e => h (Fin.ext e)
  simp only [arxLine, rotateAt, xorInto, addInto, rotl32_eq_rotateLeft _ n hn hn', add32, xor32]
  simp only [Fin.getElem_fin, Vector.getElem_set, Fin.ext_iff]
  by_cases h1 : z.val = i.val
  · simp [h1, h1 ▸ hxz]
  · by_cases h2 : x.val = i.val
    · simp [h1, h2, Ne.symm h1]; 
    · simp [h1, h2, Ne.symm h1, Ne.symm h2]

/-- PERMUTE, without unfolding its ten double-rounds. -/
theorem permute_eq_iterate (m : Words) : permute m = Nat.iterate doubleRound 10 m := by
  unfold permute
  with_reducible rfl

end Sys2Proof.Machine
end

