-- ==== Sys2Proof/Laws/Counter.lean ====
section
/-! SUPPORT. The counter field as a number: setting it, reading it, incrementing it. -/

namespace Sys2Proof.Machine

/-- One more, in a word. -/
theorem ofNat_succ_of_mod (w : Word) (k : Nat) (h : k % 2^32 = w.toNat) : BitVec.ofNat 32 (k+1) = w + 1#32 := by
  apply BitVec.eq_of_toNat_eq; simp; omega

/-- CTRINC sets the counter to its value plus one (43 R100, R102, R103). -/
theorem incrementCounter_eq (v : Variant) (s : Words) : incrementCounter v s = withCounter v s (counterValue v s + 1) := by
  have h12 := s[12].isLt; have h13 := s[13].isLt
  cases v with
  | ietf =>
    simp only [incrementCounter, withCounter, counterValue, counterCarry, add32]
    rw [ofNat_succ_of_mod s[12] _ (Nat.mod_eq_of_lt h12)]; simp
  | classic =>
    have hc : incrementCounter .classic s = if s[12] + 1#32 = 0#32 then (s.set 12 (s[12] + 1#32)).set 13 (s[13] + 1#32) else s.set 12 (s[12] + 1#32) := by
      unfold incrementCounter
      by_cases h : s[12] + 1#32 = 0#32
      · rw [if_pos h]; simp [add32, counterCarry, h]
      · rw [if_neg h]; simp [add32, counterCarry, h]
    rw [hc]
    simp only [withCounter, counterValue]
    have e1 : BitVec.ofNat 32 (s[12].toNat + 2^32 * s[13].toNat + 1) = s[12] + 1#32 := ofNat_succ_of_mod _ _ (by omega)
    rw [e1]
    by_cases h0 : s[12] + 1#32 = 0#32
    · rw [if_pos h0]
      have h1 : s[12].toNat = 2^32 - 1 := by
        have := congrArg BitVec.toNat h0; simp at this; omega
      congr 1
      apply BitVec.eq_of_toNat_eq; simp; omega
    · rw [if_neg h0]
      have h1 : s[12].toNat ≠ 2^32 - 1 := by
        intro h2; apply h0; apply BitVec.eq_of_toNat_eq; simp; omega
      have : BitVec.ofNat 32 ((s[12].toNat + 2^32 * s[13].toNat + 1) / 2^32) = s[13] := by
        apply BitVec.eq_of_toNat_eq; simp; omega
      rw [this]
      apply Vector.ext; intro i hi
      by_cases h13 : i = 13
      · subst h13; simp
      · simp [Vector.getElem_set, Ne.symm h13]

/-- Reading the counter that was set. -/
theorem counterValue_withCounter (v : Variant) (s : Words) (n : Nat) : counterValue v (withCounter v s n) = n % counterRange v := by
  cases v <;> simp [counterValue, withCounter, counterRange]
  omega

/-- Setting twice is setting once. -/
theorem withCounter_withCounter (v : Variant) (s : Words) (m n : Nat) : withCounter v (withCounter v s m) n = withCounter v s n := by
  cases v
  · simp only [withCounter]
    apply Vector.ext; intro i hi
    simp only [Vector.getElem_set]
    split <;> [skip; split] <;> simp_all
  · simp [withCounter]

/-- Only the counter value modulo its range counts. -/
theorem withCounter_congr (v : Variant) (s : Words) (m n : Nat) (h : m % counterRange v = n % counterRange v) : withCounter v s m = withCounter v s n := by
  cases v
  · simp only [withCounter, counterRange] at *
    have e1 : BitVec.ofNat 32 m = BitVec.ofNat 32 n := by apply BitVec.eq_of_toNat_eq; simp; omega
    have e2 : BitVec.ofNat 32 (m/2^32) = BitVec.ofNat 32 (n/2^32) := by apply BitVec.eq_of_toNat_eq; simp; omega
    rw [e1, e2]
  · simp only [withCounter, counterRange] at *
    have e1 : BitVec.ofNat 32 m = BitVec.ofNat 32 n := by apply BitVec.eq_of_toNat_eq; simp; omega
    rw [e1]

/-- Setting the counter to what it is changes nothing. -/
theorem withCounter_self (v : Variant) (s : Words) : withCounter v s (counterValue v s) = s := by
  have h12 := s[12].isLt; have h13 := s[13].isLt
  cases v
  · simp only [withCounter, counterValue]
    have e1 : BitVec.ofNat 32 (s[12].toNat + 2^32 * s[13].toNat) = s[12] := by apply BitVec.eq_of_toNat_eq; simp; omega
    have e2 : BitVec.ofNat 32 ((s[12].toNat + 2^32 * s[13].toNat)/2^32) = s[13] := by apply BitVec.eq_of_toNat_eq; simp; omega
    rw [e1, e2]; simp
  · simp [withCounter, counterValue]

/-- The counter is within its range. -/
theorem counterValue_lt (v : Variant) (s : Words) : counterValue v s < counterRange v := by
  have h12 := s[12].isLt; have h13 := s[13].isLt
  cases v <;> simp [counterValue, counterRange] <;> omega

/-- The counter field lies above the constants and the key. -/
theorem withCounter_get_low (v : Variant) (s : Words) (n k : Nat) (hk : k < 12) : (withCounter v s n)[k] = s[k] := by
  have a : ¬ 12 = k := by omega
  have b : ¬ 13 = k := by omega
  cases v <;> simp [withCounter, a, b]

end Sys2Proof.Machine
end

