-- ==== Sys2Proof/Laws/Decode.lean ====
section
/-! SUPPORT. The fields of a micro-word as numbers. -/

namespace Sys2Proof

/-- The micro-opcode field. -/
theorem uop_toNat (w : MicroWord) : (w.extractLsb' 16 4).toNat = w.toNat / 2^16 := by
  have := w.isLt
  simp [BitVec.extractLsb'_toNat, Nat.shiftRight_eq_div_pow]; omega

/-- The operand bits are zero. -/
theorem low_eq_zero_iff (w : MicroWord) : w.extractLsb' 0 16 = 0#16 ↔ w.toNat % 2^16 = 0 := by
  rw [← BitVec.toNat_inj]; simp [BitVec.extractLsb'_toNat]

/-- An index field. -/
theorem microIndex_val (w : MicroWord) (lo : Nat) : (microIndex w lo).val = w.toNat / 2^lo % 16 := by
  simp [microIndex, BitVec.extractLsb'_toNat, Nat.shiftRight_eq_div_pow]

/-- A micro-word from its fields. -/
theorem microWord_toNat (u : BitVec 4) (a b c d : Fin 16) : (microWord u a b c d).toNat = u.toNat * 2^16 + a.val*2^12 + b.val*2^8+c.val*2^4+d.val := by
  have := a.isLt; have := b.isLt; have := c.isLt; have := d.isLt; have := u.isLt
  unfold microWord
  simp only [BitVec.toNat_append, BitVec.toNat_ofFin]
  rw [← Nat.shiftLeft_add_eq_or_of_lt (by omega), ← Nat.shiftLeft_add_eq_or_of_lt (by omega), ← Nat.shiftLeft_add_eq_or_of_lt (by omega), ← Nat.shiftLeft_add_eq_or_of_lt (by omega)]
  simp only [Nat.shiftLeft_eq]; omega

end Sys2Proof
end

