-- ==== Sys2Proof/Laws/Init.lean ====
section
/-! SUPPORT. What INIT answers, and which words it loads. -/

namespace Sys2Proof.Machine

/-- The loaded words begin with the four constants. -/
theorem loadState_constants (v : Variant) (key nonce : List Byte) (w : Words) (h : loadState v key nonce = some w) : w[0] = const0 ∧ w[1] = const1 ∧ w[2] = const2 ∧ w[3] = const3 := by
  simp only [loadState, Option.bind_eq_bind, Option.bind_eq_some_iff] at h
  obtain ⟨k0, -, k1, -, k2, -, k3, -, k4, -, k5, -, k6, -, k7, -, ⟨a, b, c, d⟩, -, h⟩ := h
  injection h with h; subst h; exact ⟨rfl, rfl, rfl, rfl⟩

/-- The sixteen words a 32-byte key and an 8-byte nonce load. -/
theorem loadState_classic_eq (key nonce : List Byte) (hk : key.length = 32) (hn : nonce.length = 8) :
    loadState .classic key nonce = some #v[const0, const1, const2, const3,
      wordOfBytes key[0] key[1] key[2] key[3], wordOfBytes key[4] key[5] key[6] key[7],
      wordOfBytes key[8] key[9] key[10] key[11], wordOfBytes key[12] key[13] key[14] key[15],
      wordOfBytes key[16] key[17] key[18] key[19], wordOfBytes key[20] key[21] key[22] key[23],
      wordOfBytes key[24] key[25] key[26] key[27], wordOfBytes key[28] key[29] key[30] key[31],
      0#32, 0#32, wordOfBytes nonce[0] nonce[1] nonce[2] nonce[3],
      wordOfBytes nonce[4] nonce[5] nonce[6] nonce[7]] := by
  unfold loadState loadTail
  simp only [dec32le_of_le key 0 (by omega), dec32le_of_le key 4 (by omega), dec32le_of_le key 8 (by omega), dec32le_of_le key 12 (by omega), dec32le_of_le key 16 (by omega), dec32le_of_le key 20 (by omega), dec32le_of_le key 24 (by omega), dec32le_of_le key 28 (by omega),
    dec32le_of_le nonce 0 (by omega), dec32le_of_le nonce 4 (by omega)]
  rfl

/-- A 32-byte key and an 8-byte nonce load, with counter 0. -/
theorem loads_classic (key nonce : List Byte) (hk : key.length = 32) (hn : nonce.length = 8) :
    ∃ base, Loads key nonce .classic base ∧ counterValue .classic base = 0 :=
  ⟨_, ⟨hk, by rw [hn]; rfl, loadState_classic_eq key nonce hk hn⟩, rfl⟩

/-- The sixteen words a 32-byte key and a 12-byte nonce load. -/
theorem loadState_ietf_eq (key nonce : List Byte) (hk : key.length = 32) (hn : nonce.length = 12) :
    loadState .ietf key nonce = some #v[const0, const1, const2, const3,
      wordOfBytes key[0] key[1] key[2] key[3], wordOfBytes key[4] key[5] key[6] key[7],
      wordOfBytes key[8] key[9] key[10] key[11], wordOfBytes key[12] key[13] key[14] key[15],
      wordOfBytes key[16] key[17] key[18] key[19], wordOfBytes key[20] key[21] key[22] key[23],
      wordOfBytes key[24] key[25] key[26] key[27], wordOfBytes key[28] key[29] key[30] key[31],
      0#32, wordOfBytes nonce[0] nonce[1] nonce[2] nonce[3],
      wordOfBytes nonce[4] nonce[5] nonce[6] nonce[7],
      wordOfBytes nonce[8] nonce[9] nonce[10] nonce[11]] := by
  unfold loadState loadTail
  simp only [dec32le_of_le key 0 (by omega), dec32le_of_le key 4 (by omega), dec32le_of_le key 8 (by omega), dec32le_of_le key 12 (by omega), dec32le_of_le key 16 (by omega), dec32le_of_le key 20 (by omega), dec32le_of_le key 24 (by omega), dec32le_of_le key 28 (by omega),
    dec32le_of_le nonce 0 (by omega), dec32le_of_le nonce 4 (by omega), dec32le_of_le nonce 8 (by omega)]
  rfl

/-- A 32-byte key and a 12-byte nonce load, with counter 0. -/
theorem loads_ietf (key nonce : List Byte) (hk : key.length = 32) (hn : nonce.length = 12) :
    ∃ base, Loads key nonce .ietf base ∧ counterValue .ietf base = 0 :=
  ⟨_, ⟨hk, by rw [hn]; rfl, loadState_ietf_eq key nonce hk hn⟩, rfl⟩

/-- What a key and a nonce load is determined. -/
theorem loads_unique {key nonce v v' base base'} (h : Loads key nonce v base) (h' : Loads key nonce v' base') : v = v' ∧ base = base' := by
  obtain ⟨-, a, b⟩ := h; obtain ⟨-, a', b'⟩ := h'
  rw [a] at a'; injection a' with a'; subst a'; rw [b] at b'; injection b' with b'; exact ⟨rfl, b'⟩

/-- INIT answers an error or loads; it never stops. -/
theorem execInit_cases (key nonce : List Byte) (s : State) :
    (∃ e, (e = .invalidKeyLength ∨ e = .invalidNonceLength) ∧ exec (.init key nonce) s = .next (raise e s)) ∨
    (∃ v w, Loads key nonce v w ∧ exec (.init key nonce) s = .next (respondOk [] (startStream v w s))) := by
  show (∃ e, _ ∧ execInit key nonce s = _) ∨ (∃ v w, _ ∧ execInit key nonce s = _)
  unfold execInit
  by_cases hk : key.length = 32
  · rw [if_neg (by simp [hk, keyBytes])]
    by_cases h8 : nonce.length = 8
    · obtain ⟨base, hl, -⟩ := loads_classic key nonce hk h8
      right; refine ⟨_, _, hl, ?_⟩; rw [hl.2.1]; simp only [hl.2.2]
    · by_cases h12 : nonce.length = 12
      · obtain ⟨base, hl, -⟩ := loads_ietf key nonce hk h12
        right; refine ⟨_, _, hl, ?_⟩; rw [hl.2.1]; simp only [hl.2.2]
      · left; refine ⟨.invalidNonceLength, Or.inr rfl, ?_⟩
        have : variantOfNonce nonce.length = none := by simp [variantOfNonce, h8, h12]
        rw [this]
  · left; refine ⟨.invalidKeyLength, Or.inl rfl, ?_⟩
    rw [if_pos (by simpa [keyBytes] using hk)]

end Sys2Proof.Machine
end

