-- ==== Sys2Proof/Laws/PerInstr.lean ====
section
/-! SUPPORT. A statement made per instruction: the opcode field of its encoding is the one spec/opcode_table.json gives its
row (spec/30_encoding.md R49, R56). -/

namespace Sys2Proof.Laws.OpcodeField

/-- The opcode an encoding carries: a frame's first byte, or bits 19..16 of a micro-word. -/
def opcodeOf : Encoding → Option Nat
  | .frame f => f.head?.map BitVec.toNat
  | .micro w => some (w.toNat / 2 ^ 16)

/-- The opcode of an instruction's row in the table. -/
def tableOpcode : Instr → Nat
  | .init _ _ => 1
  | .encrypt _ => 2
  | .decrypt _ => 3
  | .ldmix => 1
  | .qr _ _ _ _ => 2
  | .ffwd => 3
  | .ser => 4
  | .ctrinc => 5
  | .clrcur => 6
  | .xorb => 7

/-- The encoding of `i` carries its row's opcode. -/
def Statement (i : Instr) : Prop := opcodeOf (encode i) = some (tableOpcode i)

theorem init (key nonce : List Byte) : Statement (.init key nonce) := rfl
theorem encrypt (data : List Byte) : Statement (.encrypt data) := rfl
theorem decrypt (data : List Byte) : Statement (.decrypt data) := rfl
theorem ldmix : Statement .ldmix := rfl
theorem qr (a b c d : Fin 16) : Statement (.qr a b c d) := by
  have := a.isLt; have := b.isLt; have := c.isLt; have := d.isLt
  simp only [Statement, encode, opcodeOf, tableOpcode, microWord_toNat, Option.some.injEq]
  show (2 * 2 ^ 16 + _ + _ + _ + _) / 2 ^ 16 = 2
  omega
theorem ffwd : Statement .ffwd := rfl
theorem ser : Statement .ser := rfl
theorem ctrinc : Statement .ctrinc := rfl
theorem clrcur : Statement .clrcur := rfl
theorem xorb : Statement .xorb := rfl

end Sys2Proof.Laws.OpcodeField
end

