-- ==== Sys2Proof/Laws/State.lean ====
section
/-! SUPPORT. What each named update of the state does to each field, so that no proof unfolds a record update. -/

namespace Sys2Proof.Machine

/-! ### respond -/

@[simp] theorem respond_S (g : Frame) (s : State) : (respond g s).S = s.S := rfl
@[simp] theorem respond_M (g : Frame) (s : State) : (respond g s).M = s.M := rfl
@[simp] theorem respond_B (g : Frame) (s : State) : (respond g s).B = s.B := rfl
@[simp] theorem respond_cursor (g : Frame) (s : State) : (respond g s).cursor = s.cursor := rfl
@[simp] theorem respond_variant (g : Frame) (s : State) : (respond g s).variant = s.variant := rfl
@[simp] theorem respond_ready (g : Frame) (s : State) : (respond g s).ready = s.ready := rfl
@[simp] theorem respond_seq (g : Frame) (s : State) : (respond g s).seq = s.seq := rfl
@[simp] theorem respond_uir (g : Frame) (s : State) : (respond g s).uir = s.uir := rfl
@[simp] theorem respond_data (g : Frame) (s : State) : (respond g s).data = s.data := rfl
@[simp] theorem respond_out (g : Frame) (s : State) : (respond g s).out = s.out := rfl
@[simp] theorem respond_host (g : Frame) (s : State) : (respond g s).host = s.host := rfl
@[simp] theorem respond_rsp (g : Frame) (s : State) : (respond g s).rsp = s.rsp ++ [g] := rfl
@[simp] theorem respond_resets (g : Frame) (s : State) : (respond g s).resets = s.resets := rfl

/-! ### respondOk -/

@[simp] theorem respondOk_S (o : List Byte) (s : State) : (respondOk o s).S = s.S := rfl
@[simp] theorem respondOk_M (o : List Byte) (s : State) : (respondOk o s).M = s.M := rfl
@[simp] theorem respondOk_B (o : List Byte) (s : State) : (respondOk o s).B = s.B := rfl
@[simp] theorem respondOk_cursor (o : List Byte) (s : State) : (respondOk o s).cursor = s.cursor := rfl
@[simp] theorem respondOk_variant (o : List Byte) (s : State) : (respondOk o s).variant = s.variant := rfl
@[simp] theorem respondOk_ready (o : List Byte) (s : State) : (respondOk o s).ready = s.ready := rfl
@[simp] theorem respondOk_seq (o : List Byte) (s : State) : (respondOk o s).seq = s.seq := rfl
@[simp] theorem respondOk_uir (o : List Byte) (s : State) : (respondOk o s).uir = s.uir := rfl
@[simp] theorem respondOk_data (o : List Byte) (s : State) : (respondOk o s).data = s.data := rfl
@[simp] theorem respondOk_out (o : List Byte) (s : State) : (respondOk o s).out = s.out := rfl
@[simp] theorem respondOk_host (o : List Byte) (s : State) : (respondOk o s).host = s.host := rfl
@[simp] theorem respondOk_rsp (o : List Byte) (s : State) : (respondOk o s).rsp = s.rsp ++ [statusOk :: o] := rfl
@[simp] theorem respondOk_resets (o : List Byte) (s : State) : (respondOk o s).resets = s.resets := rfl

/-! ### raise -/

@[simp] theorem raise_S (e : ErrorKind) (s : State) : (raise e s).S = s.S := rfl
@[simp] theorem raise_M (e : ErrorKind) (s : State) : (raise e s).M = s.M := rfl
@[simp] theorem raise_B (e : ErrorKind) (s : State) : (raise e s).B = s.B := rfl
@[simp] theorem raise_cursor (e : ErrorKind) (s : State) : (raise e s).cursor = s.cursor := rfl
@[simp] theorem raise_variant (e : ErrorKind) (s : State) : (raise e s).variant = s.variant := rfl
@[simp] theorem raise_ready (e : ErrorKind) (s : State) : (raise e s).ready = (s.ready && !clearsReady e) := rfl
@[simp] theorem raise_seq (e : ErrorKind) (s : State) : (raise e s).seq = s.seq := rfl
@[simp] theorem raise_uir (e : ErrorKind) (s : State) : (raise e s).uir = s.uir := rfl
@[simp] theorem raise_data (e : ErrorKind) (s : State) : (raise e s).data = s.data := rfl
@[simp] theorem raise_out (e : ErrorKind) (s : State) : (raise e s).out = s.out := rfl
@[simp] theorem raise_host (e : ErrorKind) (s : State) : (raise e s).host = s.host := rfl
@[simp] theorem raise_rsp (e : ErrorKind) (s : State) : (raise e s).rsp = s.rsp ++ [[statusOf e]] := rfl
@[simp] theorem raise_resets (e : ErrorKind) (s : State) : (raise e s).resets = s.resets := rfl

/-! ### ldmix -/

@[simp] theorem ldmix_S (s : State) : (ldmix s).S = s.S := rfl
@[simp] theorem ldmix_M (s : State) : (ldmix s).M = s.S := rfl
@[simp] theorem ldmix_B (s : State) : (ldmix s).B = s.B := rfl
@[simp] theorem ldmix_cursor (s : State) : (ldmix s).cursor = s.cursor := rfl
@[simp] theorem ldmix_variant (s : State) : (ldmix s).variant = s.variant := rfl
@[simp] theorem ldmix_ready (s : State) : (ldmix s).ready = s.ready := rfl
@[simp] theorem ldmix_seq (s : State) : (ldmix s).seq = s.seq := rfl
@[simp] theorem ldmix_uir (s : State) : (ldmix s).uir = s.uir := rfl
@[simp] theorem ldmix_data (s : State) : (ldmix s).data = s.data := rfl
@[simp] theorem ldmix_out (s : State) : (ldmix s).out = s.out := rfl
@[simp] theorem ldmix_host (s : State) : (ldmix s).host = s.host := rfl
@[simp] theorem ldmix_rsp (s : State) : (ldmix s).rsp = s.rsp := rfl
@[simp] theorem ldmix_resets (s : State) : (ldmix s).resets = s.resets := rfl

/-! ### permuteMix -/

@[simp] theorem permuteMix_S (s : State) : (permuteMix s).S = s.S := by
  simp only [permuteMix]
@[simp] theorem permuteMix_M (s : State) : (permuteMix s).M = permute s.M := by
  simp only [permuteMix]
@[simp] theorem permuteMix_B (s : State) : (permuteMix s).B = s.B := by
  simp only [permuteMix]
@[simp] theorem permuteMix_cursor (s : State) : (permuteMix s).cursor = s.cursor := by
  simp only [permuteMix]
@[simp] theorem permuteMix_variant (s : State) : (permuteMix s).variant = s.variant := by
  simp only [permuteMix]
@[simp] theorem permuteMix_ready (s : State) : (permuteMix s).ready = s.ready := by
  simp only [permuteMix]
@[simp] theorem permuteMix_seq (s : State) : (permuteMix s).seq = s.seq := by
  simp only [permuteMix]
@[simp] theorem permuteMix_uir (s : State) : (permuteMix s).uir = s.uir := by
  simp only [permuteMix]
@[simp] theorem permuteMix_data (s : State) : (permuteMix s).data = s.data := by
  simp only [permuteMix]
@[simp] theorem permuteMix_out (s : State) : (permuteMix s).out = s.out := by
  simp only [permuteMix]
@[simp] theorem permuteMix_host (s : State) : (permuteMix s).host = s.host := by
  simp only [permuteMix]
@[simp] theorem permuteMix_rsp (s : State) : (permuteMix s).rsp = s.rsp := by
  simp only [permuteMix]
@[simp] theorem permuteMix_resets (s : State) : (permuteMix s).resets = s.resets := by
  simp only [permuteMix]

/-! ### ffwd -/

@[simp] theorem ffwd_S (s : State) : (ffwd s).S = s.S := by
  simp only [ffwd]
@[simp] theorem ffwd_M (s : State) : (ffwd s).M = addWords s.M s.S := by
  simp only [ffwd]
@[simp] theorem ffwd_B (s : State) : (ffwd s).B = s.B := by
  simp only [ffwd]
@[simp] theorem ffwd_cursor (s : State) : (ffwd s).cursor = s.cursor := by
  simp only [ffwd]
@[simp] theorem ffwd_variant (s : State) : (ffwd s).variant = s.variant := by
  simp only [ffwd]
@[simp] theorem ffwd_ready (s : State) : (ffwd s).ready = s.ready := by
  simp only [ffwd]
@[simp] theorem ffwd_seq (s : State) : (ffwd s).seq = s.seq := by
  simp only [ffwd]
@[simp] theorem ffwd_uir (s : State) : (ffwd s).uir = s.uir := by
  simp only [ffwd]
@[simp] theorem ffwd_data (s : State) : (ffwd s).data = s.data := by
  simp only [ffwd]
@[simp] theorem ffwd_out (s : State) : (ffwd s).out = s.out := by
  simp only [ffwd]
@[simp] theorem ffwd_host (s : State) : (ffwd s).host = s.host := by
  simp only [ffwd]
@[simp] theorem ffwd_rsp (s : State) : (ffwd s).rsp = s.rsp := by
  simp only [ffwd]
@[simp] theorem ffwd_resets (s : State) : (ffwd s).resets = s.resets := by
  simp only [ffwd]

/-! ### ser -/

@[simp] theorem ser_S (s : State) : (ser s).S = s.S := by
  simp only [ser]
@[simp] theorem ser_M (s : State) : (ser s).M = s.M := by
  simp only [ser]
@[simp] theorem ser_B (s : State) : (ser s).B = serialize s.M := by
  simp only [ser]
@[simp] theorem ser_cursor (s : State) : (ser s).cursor = s.cursor := by
  simp only [ser]
@[simp] theorem ser_variant (s : State) : (ser s).variant = s.variant := by
  simp only [ser]
@[simp] theorem ser_ready (s : State) : (ser s).ready = s.ready := by
  simp only [ser]
@[simp] theorem ser_seq (s : State) : (ser s).seq = s.seq := by
  simp only [ser]
@[simp] theorem ser_uir (s : State) : (ser s).uir = s.uir := by
  simp only [ser]
@[simp] theorem ser_data (s : State) : (ser s).data = s.data := by
  simp only [ser]
@[simp] theorem ser_out (s : State) : (ser s).out = s.out := by
  simp only [ser]
@[simp] theorem ser_host (s : State) : (ser s).host = s.host := by
  simp only [ser]
@[simp] theorem ser_rsp (s : State) : (ser s).rsp = s.rsp := by
  simp only [ser]
@[simp] theorem ser_resets (s : State) : (ser s).resets = s.resets := by
  simp only [ser]

/-! ### ctrinc -/

@[simp] theorem ctrinc_S (s : State) : (ctrinc s).S = incrementCounter s.variant s.S := by
  simp only [ctrinc]
@[simp] theorem ctrinc_M (s : State) : (ctrinc s).M = s.M := by
  simp only [ctrinc]
@[simp] theorem ctrinc_B (s : State) : (ctrinc s).B = s.B := by
  simp only [ctrinc]
@[simp] theorem ctrinc_cursor (s : State) : (ctrinc s).cursor = s.cursor := by
  simp only [ctrinc]
@[simp] theorem ctrinc_variant (s : State) : (ctrinc s).variant = s.variant := by
  simp only [ctrinc]
@[simp] theorem ctrinc_ready (s : State) : (ctrinc s).ready = s.ready := by
  simp only [ctrinc]
@[simp] theorem ctrinc_seq (s : State) : (ctrinc s).seq = s.seq := by
  simp only [ctrinc]
@[simp] theorem ctrinc_uir (s : State) : (ctrinc s).uir = s.uir := by
  simp only [ctrinc]
@[simp] theorem ctrinc_data (s : State) : (ctrinc s).data = s.data := by
  simp only [ctrinc]
@[simp] theorem ctrinc_out (s : State) : (ctrinc s).out = s.out := by
  simp only [ctrinc]
@[simp] theorem ctrinc_host (s : State) : (ctrinc s).host = s.host := by
  simp only [ctrinc]
@[simp] theorem ctrinc_rsp (s : State) : (ctrinc s).rsp = s.rsp := by
  simp only [ctrinc]
@[simp] theorem ctrinc_resets (s : State) : (ctrinc s).resets = s.resets := by
  simp only [ctrinc]

/-! ### clrcur -/

@[simp] theorem clrcur_S (s : State) : (clrcur s).S = s.S := rfl
@[simp] theorem clrcur_M (s : State) : (clrcur s).M = s.M := rfl
@[simp] theorem clrcur_B (s : State) : (clrcur s).B = s.B := rfl
@[simp] theorem clrcur_cursor (s : State) : (clrcur s).cursor = 0#7 := rfl
@[simp] theorem clrcur_variant (s : State) : (clrcur s).variant = s.variant := rfl
@[simp] theorem clrcur_ready (s : State) : (clrcur s).ready = s.ready := rfl
@[simp] theorem clrcur_seq (s : State) : (clrcur s).seq = s.seq := rfl
@[simp] theorem clrcur_uir (s : State) : (clrcur s).uir = s.uir := rfl
@[simp] theorem clrcur_data (s : State) : (clrcur s).data = s.data := rfl
@[simp] theorem clrcur_out (s : State) : (clrcur s).out = s.out := rfl
@[simp] theorem clrcur_host (s : State) : (clrcur s).host = s.host := rfl
@[simp] theorem clrcur_rsp (s : State) : (clrcur s).rsp = s.rsp := rfl
@[simp] theorem clrcur_resets (s : State) : (clrcur s).resets = s.resets := rfl

/-! ### gen -/

@[simp] theorem gen_S (s : State) : (gen s).S = incrementCounter s.variant s.S := by
  simp [gen]
@[simp] theorem gen_M (s : State) : (gen s).M = resultWords s.S := by
  simp [gen, resultWords]
@[simp] theorem gen_B (s : State) : (gen s).B = blockFunction s.S := by
  simp [gen, blockFunction, resultWords]
@[simp] theorem gen_cursor (s : State) : (gen s).cursor = 0#7 := by
  simp [gen]
@[simp] theorem gen_variant (s : State) : (gen s).variant = s.variant := by
  simp [gen]
@[simp] theorem gen_ready (s : State) : (gen s).ready = s.ready := by
  simp [gen]
@[simp] theorem gen_seq (s : State) : (gen s).seq = 0#7 := by
  simp [gen]
@[simp] theorem gen_uir (s : State) : (gen s).uir = s.uir := by
  simp [gen]
@[simp] theorem gen_data (s : State) : (gen s).data = s.data := by
  simp [gen]
@[simp] theorem gen_out (s : State) : (gen s).out = s.out := by
  simp [gen]
@[simp] theorem gen_host (s : State) : (gen s).host = s.host := by
  simp [gen]
@[simp] theorem gen_rsp (s : State) : (gen s).rsp = s.rsp := by
  simp [gen]
@[simp] theorem gen_resets (s : State) : (gen s).resets = s.resets := by
  simp [gen]

/-! ### startStream -/

@[simp] theorem startStream_S (v : Variant) (w : Words) (s : State) : (startStream v w s).S = w := rfl
@[simp] theorem startStream_M (v : Variant) (w : Words) (s : State) : (startStream v w s).M = s.M := rfl
@[simp] theorem startStream_B (v : Variant) (w : Words) (s : State) : (startStream v w s).B = s.B := rfl
@[simp] theorem startStream_cursor (v : Variant) (w : Words) (s : State) : (startStream v w s).cursor = 0#7 := rfl
@[simp] theorem startStream_variant (v : Variant) (w : Words) (s : State) : (startStream v w s).variant = v := rfl
@[simp] theorem startStream_ready (v : Variant) (w : Words) (s : State) : (startStream v w s).ready = true := rfl
@[simp] theorem startStream_seq (v : Variant) (w : Words) (s : State) : (startStream v w s).seq = s.seq := rfl
@[simp] theorem startStream_uir (v : Variant) (w : Words) (s : State) : (startStream v w s).uir = s.uir := rfl
@[simp] theorem startStream_data (v : Variant) (w : Words) (s : State) : (startStream v w s).data = s.data := rfl
@[simp] theorem startStream_out (v : Variant) (w : Words) (s : State) : (startStream v w s).out = s.out := rfl
@[simp] theorem startStream_host (v : Variant) (w : Words) (s : State) : (startStream v w s).host = s.host := rfl
@[simp] theorem startStream_rsp (v : Variant) (w : Words) (s : State) : (startStream v w s).rsp = s.rsp := rfl
@[simp] theorem startStream_resets (v : Variant) (w : Words) (s : State) : (startStream v w s).resets = s.resets := rfl

/-! ### acceptData -/

@[simp] theorem acceptData_S (d : List Byte) (s : State) : (acceptData d s).S = s.S := rfl
@[simp] theorem acceptData_M (d : List Byte) (s : State) : (acceptData d s).M = s.M := rfl
@[simp] theorem acceptData_B (d : List Byte) (s : State) : (acceptData d s).B = s.B := rfl
@[simp] theorem acceptData_cursor (d : List Byte) (s : State) : (acceptData d s).cursor = s.cursor := rfl
@[simp] theorem acceptData_variant (d : List Byte) (s : State) : (acceptData d s).variant = s.variant := rfl
@[simp] theorem acceptData_ready (d : List Byte) (s : State) : (acceptData d s).ready = s.ready := rfl
@[simp] theorem acceptData_seq (d : List Byte) (s : State) : (acceptData d s).seq = s.seq := rfl
@[simp] theorem acceptData_uir (d : List Byte) (s : State) : (acceptData d s).uir = s.uir := rfl
@[simp] theorem acceptData_data (d : List Byte) (s : State) : (acceptData d s).data = d := rfl
@[simp] theorem acceptData_out (d : List Byte) (s : State) : (acceptData d s).out = [] := rfl
@[simp] theorem acceptData_host (d : List Byte) (s : State) : (acceptData d s).host = s.host := rfl
@[simp] theorem acceptData_rsp (d : List Byte) (s : State) : (acceptData d s).rsp = s.rsp := rfl
@[simp] theorem acceptData_resets (d : List Byte) (s : State) : (acceptData d s).resets = s.resets := rfl

/-! ### finishCommand -/

@[simp] theorem finishCommand_S (s : State) : (finishCommand s).S = s.S := rfl
@[simp] theorem finishCommand_M (s : State) : (finishCommand s).M = s.M := rfl
@[simp] theorem finishCommand_B (s : State) : (finishCommand s).B = s.B := rfl
@[simp] theorem finishCommand_cursor (s : State) : (finishCommand s).cursor = s.cursor := rfl
@[simp] theorem finishCommand_variant (s : State) : (finishCommand s).variant = s.variant := rfl
@[simp] theorem finishCommand_ready (s : State) : (finishCommand s).ready = s.ready := rfl
@[simp] theorem finishCommand_seq (s : State) : (finishCommand s).seq = s.seq := rfl
@[simp] theorem finishCommand_uir (s : State) : (finishCommand s).uir = none := rfl
@[simp] theorem finishCommand_data (s : State) : (finishCommand s).data = [] := rfl
@[simp] theorem finishCommand_out (s : State) : (finishCommand s).out = [] := rfl
@[simp] theorem finishCommand_host (s : State) : (finishCommand s).host = s.host := rfl
@[simp] theorem finishCommand_rsp (s : State) : (finishCommand s).rsp = s.rsp ++ [statusOk :: s.out] := rfl
@[simp] theorem finishCommand_resets (s : State) : (finishCommand s).resets = s.resets := rfl

/-! ### hardwareReset -/

@[simp] theorem hardwareReset_S (s : State) : (hardwareReset s).S = Vector.ofFn (Config.resetS (s.resets + 1) (some (storageOf s))) := by
  simp only [hardwareReset, State.reset]
@[simp] theorem hardwareReset_M (s : State) : (hardwareReset s).M = Vector.ofFn (Config.resetM (s.resets + 1) (some (storageOf s))) := by
  simp only [hardwareReset, State.reset]
@[simp] theorem hardwareReset_B (s : State) : (hardwareReset s).B = Vector.ofFn (Config.resetB (s.resets + 1) (some (storageOf s))) := by
  simp only [hardwareReset, State.reset]
@[simp] theorem hardwareReset_cursor (s : State) : (hardwareReset s).cursor = 0#7 := by
  simp only [hardwareReset, State.reset]
@[simp] theorem hardwareReset_variant (s : State) : (hardwareReset s).variant = .classic := by
  simp only [hardwareReset, State.reset]
@[simp] theorem hardwareReset_ready (s : State) : (hardwareReset s).ready = false := by
  simp only [hardwareReset, State.reset]
@[simp] theorem hardwareReset_seq (s : State) : (hardwareReset s).seq = 0#7 := by
  simp only [hardwareReset, State.reset]
@[simp] theorem hardwareReset_uir (s : State) : (hardwareReset s).uir = none := by
  simp only [hardwareReset, State.reset]
@[simp] theorem hardwareReset_data (s : State) : (hardwareReset s).data = [] := by
  simp only [hardwareReset, State.reset]
@[simp] theorem hardwareReset_out (s : State) : (hardwareReset s).out = [] := by
  simp only [hardwareReset, State.reset]
@[simp] theorem hardwareReset_host (s : State) : (hardwareReset s).host = s.host := by
  simp only [hardwareReset, State.reset]
@[simp] theorem hardwareReset_rsp (s : State) : (hardwareReset s).rsp = s.rsp := by
  simp only [hardwareReset, State.reset]
@[simp] theorem hardwareReset_resets (s : State) : (hardwareReset s).resets = s.resets + 1 := by
  simp only [hardwareReset, State.reset]

/-! ### issueByteStep: only the sequencer's fields move -/

@[simp] theorem issueByteStep_S (s : State) : (issueByteStep s).S = s.S := by
  unfold issueByteStep; split <;> rfl
@[simp] theorem issueByteStep_M (s : State) : (issueByteStep s).M = s.M := by
  unfold issueByteStep; split <;> rfl
@[simp] theorem issueByteStep_B (s : State) : (issueByteStep s).B = s.B := by
  unfold issueByteStep; split <;> rfl
@[simp] theorem issueByteStep_cursor (s : State) : (issueByteStep s).cursor = s.cursor := by
  unfold issueByteStep; split <;> rfl
@[simp] theorem issueByteStep_variant (s : State) : (issueByteStep s).variant = s.variant := by
  unfold issueByteStep; split <;> rfl
@[simp] theorem issueByteStep_ready (s : State) : (issueByteStep s).ready = s.ready := by
  unfold issueByteStep; split <;> rfl
@[simp] theorem issueByteStep_data (s : State) : (issueByteStep s).data = s.data := by
  unfold issueByteStep; split <;> rfl
@[simp] theorem issueByteStep_out (s : State) : (issueByteStep s).out = s.out := by
  unfold issueByteStep; split <;> rfl
@[simp] theorem issueByteStep_host (s : State) : (issueByteStep s).host = s.host := by
  unfold issueByteStep; split <;> rfl
@[simp] theorem issueByteStep_rsp (s : State) : (issueByteStep s).rsp = s.rsp := by
  unfold issueByteStep; split <;> rfl
@[simp] theorem issueByteStep_resets (s : State) : (issueByteStep s).resets = s.resets := by
  unfold issueByteStep; split <;> rfl

end Sys2Proof.Machine
end

