-- ==== Sys2Proof/Laws/Step.lean ====
section
/-! SUPPORT. What a step does inside a command, how runs compose, and what a frame can decode to. -/

namespace Sys2Proof.Machine

/-- A frame decodes to INIT or to a data command. -/
theorem decodeFrame_cases (f : Frame) (i : Instr) (h : decodeFrame f = .ok i) : (∃ k n, i = .init k n ∧ f.head? = some 1#8) ∨ (∃ enc d, i = dataCommand enc d ∧ f.length = d.length + 1 ∧ (f.head? = some 2#8 ∨ f.head? = some 3#8)) := by
  cases f with
  | nil => simp [decodeFrame] at h
  | cons op rest =>
    simp only [decodeFrame] at h
    split at h
    · rename_i ho
      match rest with
      | [] => simp [decodeInit] at h
      | [k] => simp [decodeInit] at h
      | k :: n :: p =>
        simp only [decodeInit] at h
        split at h
        · injection h with h; left; exact ⟨_, _, h.symm, by simp [ho, opInit]⟩
        · simp at h
    · split at h
      · rename_i ho; injection h with h; right; exact ⟨true, rest, h.symm, by simp, by simp [ho, opEncrypt]⟩
      · split at h
        · rename_i ho; injection h with h; right; exact ⟨false, rest, h.symm, by simp, by simp [ho, opDecrypt]⟩
        · simp at h

/-- Inside a command a step runs the micro-word issued. -/
theorem step_of_uir (s : State) (w : MicroWord) (h : NoResetNext s) (hu : s.uir = some w) : step s = runMicro w s := by
  unfold step
  rcases hh : s.host with _ | ⟨a, r⟩
  · rw [hu]
  · cases a with
    | rst => simp [NoResetNext, hh] at h
    | frame f => rw [hu]
    | cutFrame f => rw [hu]

/-- A step on a GEN micro-word before the last. -/
theorem step_gen_word (s : State) (w : MicroWord) (i : Instr) (t : State) (hn : NoResetNext s) (hu : s.uir = some w) (hw : w ≠ xorbWord) (hd : decodeMicro w = .ok i) (he : exec i s = .next t) (hs : t.seq.toNat < 84) :
    step s = .next { t with seq := t.seq + 1#7, uir := genProgram[t.seq.toNat+1]? } := by
  rw [step_of_uir s w hn hu]; unfold runMicro; rw [hd]; simp only [he, andThen, advance, hw, if_false, advanceGen, hs, if_true]

/-- A step on XORB. -/
theorem step_xorb (s t : State) (hn : NoResetNext s) (hu : s.uir = some xorbWord) (he : xorb s = .next t) :
    step s = advanceByte t := by
  rw [step_of_uir s _ hn hu]; unfold runMicro
  rw [show decodeMicro xorbWord = .ok .xorb by decide]
  simp only [exec, execXorb, he, andThen, advance, if_true]

/-- A run of `m + n` steps is a run of `m` and then one of `n`. -/
theorem run_add (m n : Nat) (s t : State) (h : Host.Core.run core m s = .next t) : Host.Core.run core (m+n) s = Host.Core.run core n t := by
  induction m generalizing s with
  | zero => injection h with h; subst h; simp
  | succ m ih =>
    rw [Nat.succ_add]
    simp only [Host.Core.run] at h ⊢
    cases hs : core.step s with
    | next u => rw [hs] at h; exact ih u h
    | fault e => rw [hs] at h; cases h
    | refused e => rw [hs] at h; cases h

/-- A run of one step. -/
theorem run_one (s t : State) (h : step s = .next t) : Host.Core.run core 1 s = .next t := by
  simp only [Host.Core.run]; rw [show core.step s = step s from rfl, h]

end Sys2Proof.Machine
end

