-- ==== Sys2Proof/Laws/Stream.lean ====
section
/-! SUPPORT. What XORB, the byte step and the byte steps of a command do. -/

namespace Sys2Proof.Machine

/-- States agree where every field agrees. -/
theorem state_ext {a b : State} (h1 : a.S = b.S) (h2 : a.M = b.M) (h3 : a.B = b.B) (h4 : a.cursor = b.cursor) (h5 : a.variant = b.variant) (h6 : a.ready = b.ready) (h7 : a.seq = b.seq) (h8 : a.uir = b.uir) (h9 : a.data = b.data) (h10 : a.out = b.out) (h11 : a.host = b.host) (h12 : a.rsp = b.rsp) (h13 : a.resets = b.resets) : a = b := by
  rcases a with ⟨⟩; rcases b with ⟨⟩; simp at *; simp_all

/-- Both data commands are the XOR transform. -/
theorem exec_dataCommand (enc : Bool) (d : List Byte) (s : State) : exec (dataCommand enc d) s = xorTransform d s := by
  cases enc <;> rfl

/-- A cursor of 64, as a number. -/
theorem cursor_eq_64_iff (c : BitVec 7) : c = 64#7 ↔ c.toNat = 64 := by rw [← BitVec.toNat_inj]; rfl

/-- A cursor of 0, as a number. -/
theorem cursor_eq_0_iff (c : BitVec 7) : c = 0#7 ↔ c.toNat = 0 := by rw [← BitVec.toNat_inj]; rfl

/-- The keystream depends on the words other than the counter. -/
theorem keystreamByte_withCounter (v : Variant) (s : Words) (n k : Nat) : keystreamByte v (withCounter v s n) k = keystreamByte v s k := by
  simp only [keystreamByte, blockAt, withCounter_withCounter]

/-- Keystream bytes whose block numbers agree modulo the counter range. -/
theorem keystreamByte_congr (v : Variant) (base : Words) (k k' : Nat) (h1 : k % 64 = k' % 64) (h2 : k / 64 % counterRange v = k' / 64 % counterRange v) : keystreamByte v base k = keystreamByte v base k' := by
  have := withCounter_congr v base _ _ h2
  simp only [keystreamByte, blockAt, this, h1]

/-- XORB where it has an effect. -/
theorem xorb_of_cons (s : State) (x : Byte) (rest : List Byte) (hd : s.data = x :: rest) (h : s.cursor.toNat < 64) :
    xorb s = .next { s with data := rest, out := s.out ++ [x ^^^ s.B[s.cursor.toNat]], cursor := s.cursor + 1#7 } := by
  unfold xorb; rw [hd]; simp [h]

/-- What XORB leaves unchanged. -/
theorem xorb_frame (s t : State) (h : xorb s = .next t) : t.S = s.S ∧ t.M = s.M ∧ t.B = s.B ∧ t.variant = s.variant ∧ t.ready = s.ready ∧ t.host = s.host ∧ t.resets = s.resets ∧ t.rsp = s.rsp := by
  unfold xorb at h
  split at h
  · cases h
  · split at h
    · injection h with h; subst h; simp
    · cases h

/-- One byte step from a legal cursor. -/
theorem byteStep_spec (s : State) (x : Byte) (rest : List Byte) (hd : s.data = x :: rest) (h : s.cursor.toNat ≤ 64) :
    ∃ t, byteStep s = .next t ∧ t.data = rest ∧ t.out = s.out ++ [x ^^^ upcomingByte s 0] ∧
      t.cursor.toNat = s.cursor.toNat % 64 + 1 ∧ t.variant = s.variant ∧ t.ready = s.ready ∧ t.uir = s.uir ∧ t.host = s.host ∧ t.rsp = s.rsp ∧ t.resets = s.resets ∧
      (s.cursor.toNat % 64 = 0 → t.seq = 0#7 ∧ t.S = withCounter s.variant s.S (counterValue s.variant s.S + 1) ∧ t.M = resultWords s.S ∧ t.B = blockFunction s.S) ∧
      (s.cursor.toNat % 64 ≠ 0 → t.seq = s.seq ∧ t.S = s.S ∧ t.M = s.M ∧ t.B = s.B) := by
  have hb : blockNeeded s = true ↔ s.cursor.toNat % 64 = 0 := by
    simp [blockNeeded, cursor_eq_0_iff, cursor_eq_64_iff]; omega
  unfold byteStep
  by_cases hn : s.cursor.toNat % 64 = 0
  · have hx := xorb_of_cons (gen s) x rest (by simpa using hd) (by simp)
    rw [if_pos (hb.2 hn), hx]
    refine ⟨_, rfl, rfl, ?_, ?_, by simp, by simp, by simp, by simp, by simp, by simp, fun _ => ⟨by simp, by simp [incrementCounter_eq], by simp, by simp⟩, fun h => absurd hn h⟩
    · simp only [upcomingByte, gen_out, gen_B, gen_cursor]
      refine congrArg (fun y => s.out ++ [x ^^^ y]) ?_
      have hks : ∀ k, k % 64 = 0 → k / 64 = counterValue s.variant s.S → keystreamByte s.variant s.S k = (blockFunction s.S)[0] := by
        intro k hk hk'
        simp only [keystreamByte, blockAt, hk, hk', withCounter_self]
      split
      · rw [hks _ (by omega) (by omega)]; simp
      · rename_i h0; rw [cursor_eq_0_iff] at h0
        rw [dif_neg (by omega), hks _ (by omega) (by omega)]; simp
    · simp; omega
  · rw [if_neg (by rw [hb]; exact hn), xorb_of_cons _ x rest hd (by omega)]
    refine ⟨_, rfl, rfl, ?_, ?_, rfl, rfl, rfl, rfl, rfl, rfl, fun h => absurd h hn, fun _ => ⟨rfl, rfl, rfl, rfl⟩⟩
    · simp only [upcomingByte]
      rw [if_neg (by rw [cursor_eq_0_iff]; omega), dif_pos (by omega)]; rfl
    · simp; omega

/-- The keystream bytes to come, after one byte step. -/
theorem upcomingByte_succ (s t : State) (h : s.cursor.toNat ≤ 64) (hv : t.variant = s.variant) (hc : t.cursor.toNat = s.cursor.toNat % 64 + 1)
    (h1 : s.cursor.toNat % 64 = 0 → t.S = withCounter s.variant s.S (counterValue s.variant s.S + 1) ∧ t.B = blockFunction s.S)
    (h2 : s.cursor.toNat % 64 ≠ 0 → t.S = s.S ∧ t.B = s.B) (i : Nat) : upcomingByte t i = upcomingByte s (i+1) := by
  have ht0 : ¬ t.cursor = 0#7 := by rw [cursor_eq_0_iff]; omega
  have hl : upcomingByte t i = if h : t.cursor.toNat + i < 64 then t.B[t.cursor.toNat + i] else keystreamByte s.variant t.S (64 * counterValue s.variant t.S + (t.cursor.toNat + i - 64)) := by
    simp only [upcomingByte, ht0, if_false, hv]
  rw [hl]
  by_cases hn : s.cursor.toNat % 64 = 0
  · obtain ⟨hS, hB⟩ := h1 hn
    have hcv := counterValue_withCounter s.variant s.S (counterValue s.variant s.S + 1)
    have hper : ∀ a b k, a % counterRange s.variant = b % counterRange s.variant → k < 64 → ∀ j, keystreamByte s.variant s.S (64 * a + 64*j+ k) = keystreamByte s.variant s.S (64*b+64*j+k) := by
      intro a b k hab hk j
      simp only [keystreamByte, blockAt]
      have e1 : (64 * a + 64*j+ k)/64 = a + j := by omega
      have e2 : (64 * b + 64*j+ k)/64 = b + j := by omega
      have e3 : (64 * a + 64*j+ k)%64 = k := by omega
      have e4 : (64 * b + 64*j+ k)%64 = k := by omega
      simp only [e1, e2, e3, e4]
      congr 2
      apply withCounter_congr; rw [Nat.add_mod, hab, ← Nat.add_mod]
    have key : ∀ m, upcomingByte s m = keystreamByte s.variant s.S (64 * counterValue s.variant s.S + m) := by
      intro m; simp only [upcomingByte]; split
      · rfl
      · rename_i h0; rw [cursor_eq_0_iff] at h0; rw [dif_neg (by omega)]; congr 1; omega
    rw [show upcomingByte s (i+1) = _ from key (i+1)]
    by_cases hlt : t.cursor.toNat + i < 64
    · rw [dif_pos hlt]
      simp only [keystreamByte, blockAt, hB]
      have e1 : (64 * counterValue s.variant s.S + (i+1))/64 = counterValue s.variant s.S := by omega
      have e2 : (64 * counterValue s.variant s.S + (i+1))%64 = t.cursor.toNat + i := by omega
      simp only [e1, e2, withCounter_self]
    · rw [dif_neg hlt, hS, keystreamByte_withCounter, hcv]
      have := hper ((counterValue s.variant s.S + 1) % counterRange s.variant) (counterValue s.variant s.S + 1) ((t.cursor.toNat + i - 64) % 64) (by simp) (by omega) ((t.cursor.toNat + i - 64)/64)
      have ea : 64 * ((counterValue s.variant s.S + 1) % counterRange s.variant) + (t.cursor.toNat + i - 64) = 64 * ((counterValue s.variant s.S + 1) % counterRange s.variant) + 64 * ((t.cursor.toNat + i - 64)/64) + (t.cursor.toNat + i - 64) % 64 := by omega
      rw [ea]; exact this.trans (congrArg _ (by omega))
  · obtain ⟨hS, hB⟩ := h2 hn
    have e : t.cursor.toNat + i = s.cursor.toNat + (i+1) := by omega
    unfold upcomingByte
    rw [if_neg (by rw [cursor_eq_0_iff]; omega)]
    by_cases hlt : t.cursor.toNat + i < 64
    · rw [dif_pos hlt, dif_pos (by omega)]; simp only [e, hB]
    · rw [dif_neg hlt, dif_neg (by omega), hS, e]

/-- All byte steps of a command. -/
theorem streamBytes_spec (data : List Byte) : ∀ (s : State), s.data = data → s.cursor.toNat ≤ 64 →
    ∃ t, streamBytes data.length s = .next t ∧ t.data = [] ∧ t.out = s.out ++ xorWith (upcomingByte s) data ∧ (∀ i, upcomingByte t i = upcomingByte s (i + data.length)) ∧
      t.cursor.toNat = cursorAfterBytes s.cursor.toNat data.length ∧ t.variant = s.variant ∧ t.ready = s.ready ∧ t.uir = s.uir ∧ t.host = s.host ∧ t.rsp = s.rsp ∧ t.resets = s.resets ∧
      t.S = withCounter s.variant s.S (counterValue s.variant s.S + genRuns s.cursor.toNat data.length) ∧
      (genRuns s.cursor.toNat data.length = 0 → t.seq = s.seq ∧ t.M = s.M ∧ t.B = s.B) ∧
      (genRuns s.cursor.toNat data.length ≠ 0 → t.seq = 0#7 ∧ t.M = resultWords (withCounter s.variant s.S (counterValue s.variant s.S + genRuns s.cursor.toNat data.length - 1)) ∧ t.B = blockAt s.variant s.S (counterValue s.variant s.S + genRuns s.cursor.toNat data.length - 1)) := by
  induction data with
  | nil =>
    intro s hd hc
    have : genRuns s.cursor.toNat 0 = 0 := by simp [genRuns, ceilBlocks]; 
    refine ⟨s, rfl, hd, by simp [xorWith], fun i => rfl, by simp [cursorAfterBytes], rfl, rfl, rfl, rfl, rfl, rfl, ?_, ?_, ?_⟩
    · simp [this, withCounter_self]
    · simp
    · simp [this]
  | cons x rest ih =>
    intro s hd hc
    obtain ⟨u, hu, ud, uo, uc, uv, ur, uu, uh, urs, urr, u1, u2⟩ := byteStep_spec s x rest hd hc
    obtain ⟨t, ht, td, to', tup, tc, tv, tr, tu, th, trs, trr, tS, t1, t2⟩ := ih u ud (by omega)
    have hup : ∀ i, upcomingByte u i = upcomingByte s (i+1) := upcomingByte_succ s u hc uv uc (fun h => ⟨(u1 h).2.1, (u1 h).2.2.2⟩) (fun h => ⟨(u2 h).2.1, (u2 h).2.2.2⟩)
    have hg : genRuns s.cursor.toNat (rest.length+1) = genRuns u.cursor.toNat rest.length + (if s.cursor.toNat % 64 = 0 then 1 else 0) := by
      rw [uc]; simp only [genRuns, ceilBlocks]
      (repeat' split) <;> omega
    refine ⟨t, ?_, td, ?_, fun i => by rw [tup, hup]; rfl, ?_, by rw [tv, uv], by rw [tr, ur], by rw [tu, uu], by rw [th, uh], by rw [trs, urs], by rw [trr, urr], ?_, ?_, ?_⟩
    · simp only [List.length_cons, streamBytes, andThen, hu]; exact ht
    · rw [to', uo]
      have : upcomingByte u = fun i => upcomingByte s (i+1) := funext hup
      simp [xorWith, this]
    · rw [tc, uc]; simp only [cursorAfterBytes, List.length_cons]; (repeat' split) <;> omega
    · simp only [List.length_cons, hg]
      rw [tS, uv]
      by_cases hn : s.cursor.toNat % 64 = 0
      · rw [if_pos hn, (u1 hn).2.1, withCounter_withCounter, counterValue_withCounter]; apply withCounter_congr; rw [Nat.mod_add_mod]; congr 1; omega
      · rw [if_neg hn, (u2 hn).2.1]; rfl
    · simp only [List.length_cons, hg]
      intro h0
      have hn : ¬ s.cursor.toNat % 64 = 0 := by intro hn; rw [if_pos hn] at h0; omega
      rw [if_neg hn] at h0
      obtain ⟨a, b, c⟩ := t1 h0
      exact ⟨a.trans (u2 hn).1, b.trans (u2 hn).2.2.1, c.trans (u2 hn).2.2.2⟩
    · simp only [List.length_cons, hg]
      intro h0
      by_cases hg0 : genRuns u.cursor.toNat rest.length = 0
      · have hn : s.cursor.toNat % 64 = 0 := by by_contra hn; rw [if_neg hn] at h0; omega
        obtain ⟨a, b, c⟩ := t1 hg0
        obtain ⟨a', _, b', c'⟩ := u1 hn
        rw [if_pos hn, hg0]
        refine ⟨a.trans a', ?_, ?_⟩
        · rw [b, b']; simp [withCounter_self]
        · rw [c, c']; simp [blockAt, withCounter_self]
      · obtain ⟨a, b, c⟩ := t2 hg0
        refine ⟨a, ?_, ?_⟩
        · rw [b, uv]; congr 1
          by_cases hn : s.cursor.toNat % 64 = 0
          · rw [if_pos hn, (u1 hn).2.1, withCounter_withCounter, counterValue_withCounter]; apply withCounter_congr
            rw [Nat.add_sub_assoc (by omega), Nat.mod_add_mod]; congr 1; omega
          · rw [if_neg hn, (u2 hn).2.1]; rfl
        · rw [c, uv]; simp only [blockAt]; congr 1
          by_cases hn : s.cursor.toNat % 64 = 0
          · rw [if_pos hn, (u1 hn).2.1, withCounter_withCounter, counterValue_withCounter]; apply withCounter_congr
            rw [Nat.add_sub_assoc (by omega), Nat.mod_add_mod]; congr 1; omega
          · rw [if_neg hn, (u2 hn).2.1]; rfl

/-- The cursor at a position is legal. -/
theorem cursorAt_le (n : Nat) : cursorAt n ≤ 64 := by simp only [cursorAt, ceilBlocks]; split <;> omega

/-- At a position of a stream, the bytes to come are the keystream from there. -/
theorem upcomingByte_of_atPosition (v : Variant) (base : Words) (p : Nat) (s : State) (h : AtPosition v base p s) (i : Nat) : upcomingByte s i = keystreamByte v base (p+i) := by
  obtain ⟨-, -, hv, hS, hc, hB⟩ := h
  subst hv
  have key : ∀ m, keystreamByte s.variant s.S (64 * counterValue s.variant s.S + m) = keystreamByte s.variant base (64 * ceilBlocks p + m) := by
    intro m; rw [hS, counterValue_withCounter, keystreamByte_withCounter]
    apply keystreamByte_congr
    · omega
    · rw [show (64 * (ceilBlocks p % counterRange s.variant) + m)/64 = ceilBlocks p % counterRange s.variant + m / 64 by omega, show (64 * ceilBlocks p + m)/64 = ceilBlocks p + m / 64 by omega, Nat.mod_add_mod]
  unfold upcomingByte
  by_cases h0 : s.cursor = 0#7
  · rw [if_pos h0, key]
    have : p = 0 := by rw [cursor_eq_0_iff, hc] at h0; simp only [cursorAt, ceilBlocks] at h0; split at h0 <;> omega
    subst this; rfl
  · rw [if_neg h0]
    have hp : p ≠ 0 := by intro hp; subst hp; rw [cursor_eq_0_iff, hc] at h0; simp [cursorAt] at h0
    have hcur : s.cursor.toNat = p - 64 * (ceilBlocks p - 1) := by rw [hc]; simp [cursorAt, hp]
    by_cases hlt : s.cursor.toNat + i < 64
    · rw [dif_pos hlt]
      simp only [(hB hp).1, keystreamByte, blockAt]
      have e1 : (p+i)/64 = ceilBlocks p - 1 := by simp only [ceilBlocks] at *; omega
      have e2 : (p+i)%64 = s.cursor.toNat + i := by simp only [ceilBlocks] at *; omega
      simp only [e1, e2]
    · rw [dif_neg hlt, key]; congr 1; simp only [ceilBlocks] at *; omega

end Sys2Proof.Machine
end

