-- ==== Sys2Proof/Tests/Slice0.lean ====
section
/-! SUPPORT. Tests of the model against the numbers of spec/95_test_vectors.md and the worked examples of the rules, and one
witness theorem per obligation that has hypotheses. The expected values are the spec's. -/

open Sys2Proof Sys2Proof.Machine

namespace Sys2Proof.Tests

/-! ### Helpers -/

/-- `n` zero bytes. -/
def zeros (n : Nat) : List Byte := List.replicate n 0#8

/-- The key `00 01 .. 1f`. -/
def countingKey : List Byte := (List.range 32).map (BitVec.ofNat 8)

/-- The state words of the zero key and nonce with the two counter words given (40 R72 (a)). -/
def zeroWords (low high : Word) : Words :=
  #v[0x61707865#32, 0x3320646e#32, 0x79622d32#32, 0x6b206574#32, 0#32, 0#32, 0#32, 0#32,
    0#32, 0#32, 0#32, 0#32, low, high, 0#32, 0#32]

/-- Sixteen words, index by index. -/
def countingWords : Words := Vector.ofFn fun i => BitVec.ofNat 32 i.val

/-- A ready core at a command boundary with this cursor; byte `k` of `B` is `k + 0x40`. -/
def readyAt (cursor : BitVec 7) : State :=
  { State.reset with S := zeroWords 1#32 0#32, M := countingWords, B := Vector.ofFn fun k => BitVec.ofNat 8 (k.val + 64),
                     cursor := cursor, ready := true }

/-- That core inside a command with one data byte left and this micro-word issued. -/
def inCommand (cursor seq : BitVec 7) (w : MicroWord) : State :=
  { readyAt cursor with seq := seq, uir := some w, data := [0x11#8] }

/-- Just after an INIT with the zero key and an 8-byte zero nonce. -/
def freshZero : State := { readyAt 0#7 with S := zeroWords 0#32 0#32 }

/-- A stream of the variant `v` on the zero words after `64` bytes. -/
def afterOneBlock (v : Variant) : State :=
  { readyAt 64#7 with
    S := withCounter v (zeroWords 0#32 0#32) 1, variant := v,
    B := blockAt v (zeroWords 0#32 0#32) 0, M := resultWords (withCounter v (zeroWords 0#32 0#32) 0) }

/-- The next state of a result, if there is one. -/
def nextOf : Result → Option State
  | .next s => some s
  | .fault _ => none
  | .refused _ => none

/-- The fault of a result, if there is one. -/
def faultOf : Result → Option Fault
  | .next _ => none
  | .fault e => some e
  | .refused _ => none

/-! ### Well-formedness: one ill-formed term per check, which the check refuses -/

theorem test_wf_refuses_long_key : (Instr.init (zeros 256) []).wellFormed = false := by decide +kernel
theorem test_wf_refuses_long_nonce : (Instr.init [] (zeros 256)).wellFormed = false := by decide +kernel
theorem test_wf_refuses_repeated_index :
    (Instr.qr 0 0 1 2).wellFormed = false ∧ (Instr.qr 0 1 0 2).wellFormed = false ∧
    (Instr.qr 0 1 2 0).wellFormed = false ∧ (Instr.qr 0 1 1 2).wellFormed = false ∧
    (Instr.qr 0 1 2 1).wellFormed = false ∧ (Instr.qr 0 1 2 2).wellFormed = false := by decide
theorem test_wf_accepts :
    (Instr.init (zeros 255) (zeros 255)).wellFormed = true ∧ (Instr.qr 3 4 9 14).wellFormed = true := by decide +kernel

/-! ### Decoding (95 D40 to D57, 30 R49, R51, R56, R60) -/

theorem test_decode_illegal_frames :
    decodeFrame [] = .error .emptyFrame ∧ decodeFrame [0x00#8] = .error .illegalOpcode ∧
    decodeFrame [0x04#8, 0x00#8] = .error .illegalOpcode ∧ decodeFrame [0xff#8] = .error .illegalOpcode ∧
    decodeFrame [0x01#8] = .error .shortInit ∧ decodeFrame [0x01#8, 0x20#8] = .error .shortInit ∧
    decodeFrame [0x01#8, 0x20#8, 0x08#8] = .error .initLength := by decide
theorem test_decode_init_too_long : decodeFrame (0x01#8 :: 0x20#8 :: 0x08#8 :: zeros 41) = .error .initLength := by
  decide +kernel
theorem test_decode_init_splits :
    decodeFrame [0x01#8, 0x02#8, 0x01#8, 0xa0#8, 0xa1#8, 0xb0#8] = .ok (.init [0xa0#8, 0xa1#8] [0xb0#8]) := by decide
theorem test_decode_init_full :
    decodeFrame (0x01#8 :: 0x20#8 :: 0x00#8 :: zeros 32) = .ok (.init (zeros 32) []) ∧
    decodeFrame [0x01#8, 0x00#8, 0x00#8] = .ok (.init [] []) := by decide +kernel
theorem test_decode_encrypt :
    decodeFrame [0x02#8] = .ok (.encrypt []) ∧ decodeFrame [0x02#8, 0x48#8, 0x65#8] = .ok (.encrypt [0x48#8, 0x65#8]) := by
  decide
theorem test_decode_decrypt : decodeFrame [0x03#8, 0xaa#8] = .ok (.decrypt [0xaa#8]) := by decide
theorem test_decode_ldmix : decodeMicro 0b00010000000000000000#20 = .ok .ldmix := by decide
theorem test_decode_qr :
    decodeMicro 0b00100000010010001100#20 = .ok (.qr 0 4 8 12) ∧ decodeMicro 0x2349E#20 = .ok (.qr 3 4 9 14) := by decide
theorem test_decode_ffwd : decodeMicro 0b00110000000000000000#20 = .ok .ffwd := by decide
theorem test_decode_ser : decodeMicro 0b01000000000000000000#20 = .ok .ser := by decide
theorem test_decode_ctrinc : decodeMicro 0b01010000000000000000#20 = .ok .ctrinc := by decide
theorem test_decode_clrcur : decodeMicro 0b01100000000000000000#20 = .ok .clrcur := by decide
theorem test_decode_xorb : decodeMicro 0b01110000000000000000#20 = .ok .xorb := by decide
theorem test_decode_reserved :
    decodeMicro 0x00000#20 = .error .reservedUop ∧ decodeMicro 0x80000#20 = .error .reservedUop ∧
    decodeMicro 0xF0000#20 = .error .reservedUop ∧ decodeMicro 0x10001#20 = .error .operandBits ∧
    decodeMicro 0x3048C#20 = .error .operandBits ∧ decodeMicro 0x20012#20 = .error .repeatedIndex := by decide

/-! ### Table words: each row's bits decode to its instruction and run first after reset -/

theorem test_table_words :
    decodeTableWord 8 0x01 = some (.init [] []) ∧ decodeTableWord 8 0x02 = some (.encrypt [0#8]) ∧
    decodeTableWord 8 0x03 = some (.decrypt [0#8]) ∧ decodeTableWord 24 0x10000 = some .ldmix ∧
    decodeTableWord 24 0x2048C = some (.qr 0 4 8 12) ∧ decodeTableWord 24 0x30000 = some .ffwd ∧
    decodeTableWord 20 0x40000 = some .ser ∧ decodeTableWord 20 0x50000 = some .ctrinc ∧
    decodeTableWord 24 0x60000 = some .clrcur ∧ decodeTableWord 24 0x70000 = some .xorb := by decide
theorem test_table_words_refused :
    decodeTableWord 8 0x04 = none ∧ decodeTableWord 24 0x20000 = none ∧ decodeTableWord 24 0x80000 = none ∧
    decodeTableWord 24 0x110000 = none := by decide
theorem test_first_frames_run :
    step (State.reset.withFetchWord 8 0x01) = exec (.init [] []) State.reset ∧
    step (State.reset.withFetchWord 8 0x02) = exec (.encrypt [0#8]) State.reset ∧
    step (State.reset.withFetchWord 8 0x03) = exec (.decrypt [0#8]) State.reset := ⟨rfl, rfl, rfl⟩
theorem test_first_ldmix_runs :
    (nextOf (step (State.reset.withFetchWord 24 0x10000))).map (fun t => t.M) = some State.reset.S := rfl
theorem test_first_xorb_answers :
    (nextOf (step (State.reset.withFetchWord 24 0x70000))).map (fun t => (t.cursor, t.rsp)) =
      some (1#7, [[0x00#8, 0#8 ^^^ State.reset.B[0]]]) := rfl

/-! ### INIT (40 R72, 95 V4) -/

theorem test_init_words_ietf :
    loadState .ietf countingKey [0x00#8, 0x00#8, 0x00#8, 0x09#8, 0x00#8, 0x00#8, 0x00#8, 0x4a#8, 0x00#8, 0x00#8, 0x00#8, 0x00#8] =
      some #v[0x61707865#32, 0x3320646e#32, 0x79622d32#32, 0x6b206574#32,
        0x03020100#32, 0x07060504#32, 0x0b0a0908#32, 0x0f0e0d0c#32,
        0x13121110#32, 0x17161514#32, 0x1b1a1918#32, 0x1f1e1d1c#32,
        0x00000000#32, 0x09000000#32, 0x4a000000#32, 0x00000000#32] := by decide
theorem test_init_classic_tail :
    (loadState .classic countingKey ((List.range 8).map (BitVec.ofNat 8))).map (fun s => [s[12], s[13], s[14], s[15]]) =
      some [0#32, 0#32, 0x03020100#32, 0x07060504#32] := by decide
theorem test_init_key_first :
    (nextOf (exec (.init (zeros 31) (zeros 7)) (readyAt 5#7))).map (fun t => (t.rsp, t.ready, t.cursor)) =
      some ([[0x01#8]], false, 5#7) := by decide
theorem test_init_bad_nonces :
    ∀ n ∈ [0, 7, 9, 10, 11, 13], (nextOf (exec (.init (zeros 32) (zeros n)) (readyAt 5#7))).map (fun t => t.rsp) =
      some [[0x02#8]] := by decide

/-! ### Codec and word operations (95 D1 to D16) -/

theorem test_dec32le :
    dec32le [0x65#8, 0x78#8, 0x70#8, 0x61#8] 0 = some 0x61707865#32 ∧
    dec32le [0x00#8, 0x01#8, 0x02#8, 0x03#8, 0x04#8, 0x05#8, 0x06#8, 0x07#8] 4 = some 0x07060504#32 ∧
    dec32le [0x00#8, 0x00#8, 0x00#8, 0x80#8] 0 = some 0x80000000#32 ∧
    dec32le [0xff#8, 0xff#8, 0xff#8, 0xff#8] 0 = some 0xffffffff#32 ∧
    dec32le [0xaa#8, 0x01#8, 0x00#8, 0x00#8, 0x00#8, 0xbb#8] 1 = some 0x00000001#32 := by decide
theorem test_enc32le :
    enc32le 0xade0b876#32 = #v[0x76#8, 0xb8#8, 0xe0#8, 0xad#8] ∧ enc32le 0x80000000#32 = #v[0x00#8, 0x00#8, 0x00#8, 0x80#8] := by
  decide
theorem test_word_operations :
    add32 0xffffffff#32 0x00000001#32 = 0#32 ∧ add32 0x11111111#32 0x01020304#32 = 0x12131415#32 ∧
    xor32 0x01234567#32 0x12131415#32 = 0x13305172#32 ∧
    [16, 12, 8, 7].map (rotl32 0x12345678#32) = [0x56781234#32, 0x45678123#32, 0x34567812#32, 0x1a2b3c09#32] ∧
    [16, 12, 8, 7].map (rotl32 0x80000000#32) = [0x00008000#32, 0x00000800#32, 0x00000080#32, 0x00000040#32] := by decide

/-! ### Block Function (95 D17 to D19, 42 R96, V1) -/

/-- Sixteen zero words but for the four given at indices 0, 4, 8, 12. -/
def lane (a b c d : Word) : Words :=
  #v[a, 0#32, 0#32, 0#32, b, 0#32, 0#32, 0#32, c, 0#32, 0#32, 0#32, d, 0#32, 0#32, 0#32]

theorem test_qr_vectors :
    quarterRound (lane 0x11111111#32 0x01020304#32 0x9b8d6f43#32 0x01234567#32) 0 4 8 12 =
      lane 0xea2a92f4#32 0xcb1cf8ce#32 0x4581472e#32 0x5881c4bb#32 ∧
    quarterRound (lane 0xffffffff#32 0xffffffff#32 0xffffffff#32 0xffffffff#32) 0 4 8 12 =
      lane 0xf0000ffd#32 0x88790878#32 0x0110fdef#32 0x010ffdf0#32 ∧
    quarterRound (lane 0x80000000#32 0x80000000#32 0x00000000#32 0x00000000#32) 0 4 8 12 =
      lane 0x00000800#32 0x04040000#32 0x00080000#32 0x00080000#32 := by decide +kernel
theorem test_column_round :
    qrGroups columnGroups (zeroWords 0#32 0#32) =
      #v[0xb7877feb#32, 0x16526ab4#32, 0xa0f85005#32, 0xb1d26bcb#32, 0x4a7d5c86#32, 0xfae0ea21#32, 0x66e11e68#32, 0xe3a851a6#32,
        0x5a83fd3f#32, 0xa0c7c792#32, 0xf75be0ef#32, 0x0b7556f4#32, 0xe21e9bcf#32, 0x3c599472#32, 0xca29678d#32, 0xa600ebd4#32] := by decide +kernel
theorem test_double_round :
    doubleRound (zeroWords 0#32 0#32) =
      #v[0xe45fd249#32, 0x1bb820a6#32, 0xe31a88ea#32, 0xe667a9fe#32, 0x2a3bf673#32, 0x86bf4098#32, 0x460b500a#32, 0xfa169886#32,
        0x538dca0e#32, 0x0c439641#32, 0x00fa16bc#32, 0x8a08812a#32, 0x6bbf8b09#32, 0xc33013d6#32, 0xbb9f9849#32, 0x87c62165#32] := by decide +kernel
theorem test_ffwd_carries :
    (nextOf (exec .ffwd (readyAt 5#7))).map (fun t => (t.M[0], t.M[3], t.M[12])) =
      some (0x61707865#32, 0x6b206577#32, 0x0000000d#32) := by decide
theorem test_ser_order :
    (nextOf (exec .ser { readyAt 5#7 with M := zeroWords 0#32 0#32 })).map (fun t => [t.B[0], t.B[3], t.B[4], t.B[7], t.B[63]]) =
      some [0x65#8, 0x61#8, 0x6e#8, 0x33#8, 0x00#8] := by decide
theorem test_known_answer_block :
    (nextOf (exec (.encrypt (zeros 64)) freshZero)).map (fun t => (t.rsp, t.S[12], t.S[13], t.cursor)) =
    some ([0x00#8 ::
    [0x76#8, 0xb8#8, 0xe0#8, 0xad#8, 0xa0#8, 0xf1#8, 0x3d#8, 0x90#8, 0x40#8, 0x5d#8, 0x6a#8, 0xe5#8, 0x53#8, 0x86#8, 0xbd#8, 0x28#8,
     0xbd#8, 0xd2#8, 0x19#8, 0xb8#8, 0xa0#8, 0x8d#8, 0xed#8, 0x1a#8, 0xa8#8, 0x36#8, 0xef#8, 0xcc#8, 0x8b#8, 0x77#8, 0x0d#8, 0xc7#8,
     0xda#8, 0x41#8, 0x59#8, 0x7c#8, 0x51#8, 0x57#8, 0x48#8, 0x8d#8, 0x77#8, 0x24#8, 0xe0#8, 0x3f#8, 0xb8#8, 0xd8#8, 0x4a#8, 0x37#8,
     0x6a#8, 0x43#8, 0xb8#8, 0xf4#8, 0x15#8, 0x18#8, 0xa1#8, 0x1c#8, 0xc3#8, 0x87#8, 0xb6#8, 0x69#8, 0xb2#8, 0xee#8, 0x65#8, 0x86#8]], 1#32, 0#32, 64#7) := by decide +kernel

/-! ### Counter (43 R102, R103) -/

theorem test_counter_classic :
    [(0#32, 0#32), (0#32, 0xfffffffe#32), (0#32, 0xffffffff#32), (1#32, 0#32), (0xffffffff#32, 0xfffffffe#32),
        (0xffffffff#32, 0xffffffff#32)].map
      (fun p => let s := incrementCounter .classic (zeroWords p.2 p.1); (s[13], s[12])) =
    [(0#32, 1#32), (0#32, 0xffffffff#32), (1#32, 0#32), (1#32, 1#32), (0xffffffff#32, 0xffffffff#32), (0#32, 0#32)] := by
  decide
theorem test_counter_ietf :
    [(7#32, 0#32), (7#32, 0xffffffff#32)].map
      (fun p => let s := incrementCounter .ietf (zeroWords p.2 p.1); (s[13], s[12])) =
    [(7#32, 1#32), (7#32, 0#32)] := by decide

/-! ### Stream machine (95 D23, P4, P6) -/

/-- P6: the classic counter ripples at the 64th byte, and the 65th byte is the next block's first. -/
theorem test_counter_ripple_stream :
    (nextOf (exec (.encrypt (zeros 65)) { readyAt 64#7 with S := zeroWords 0xffffffff#32 0#32 })).map
      (fun t => (t.rsp, t.S[12], t.S[13], t.cursor)) =
    some ([0x00#8 :: ([0xac#8, 0xe4#8, 0xcd#8, 0x09#8, 0xe2#8, 0x94#8, 0xd1#8, 0x91#8, 0x2d#8, 0x4a#8, 0xd2#8, 0x05#8, 0xd0#8, 0x6f#8, 0x95#8, 0xd9#8,
     0xc2#8, 0xf2#8, 0xbf#8, 0xcf#8, 0x45#8, 0x3e#8, 0x87#8, 0x53#8, 0xf1#8, 0x28#8, 0x76#8, 0x5b#8, 0x62#8, 0x21#8, 0x5f#8, 0x4d#8,
     0x92#8, 0xc7#8, 0x4f#8, 0x2f#8, 0x62#8, 0x6c#8, 0x6a#8, 0x64#8, 0x0c#8, 0x0b#8, 0x12#8, 0x84#8, 0xd8#8, 0x39#8, 0xec#8, 0x81#8,
     0xf1#8, 0x69#8, 0x62#8, 0x81#8, 0xda#8, 0xfc#8, 0x3e#8, 0x68#8, 0x45#8, 0x93#8, 0x93#8, 0x70#8, 0x23#8, 0xb5#8, 0x8b#8, 0x1d#8] ++
     [0x3d#8])], 1#32, 1#32, 1#7) := by decide +kernel
theorem test_decrypt_mid_block :
    (nextOf (exec (.decrypt [0x45#8, 0x00#8]) (readyAt 5#7))).map (fun t => (t.rsp, t.cursor)) =
      some ([[0x00#8, 0x00#8, 0x46#8]], 7#7) := by decide
theorem test_not_ready_first :
    (nextOf (exec (.encrypt []) State.reset)).map (fun t => t.rsp) = some [[0x04#8]] ∧
    (nextOf (exec (.decrypt []) (readyAt 5#7))).map (fun t => t.rsp) = some [[0x03#8]] := by decide
theorem test_illegal_keeps_ready :
    (nextOf (step { readyAt 5#7 with host := [.frame [0x01#8, 0x20#8, 0x08#8]] })).map (fun t => (t.rsp, t.ready, t.host)) =
      some ([[0x05#8]], true, []) := by decide
theorem test_xorb_stops :
    faultOf (exec .xorb (readyAt 5#7)) = some .noDataByte ∧
    faultOf (exec .xorb (inCommand 64#7 0#7 xorbWord)) = some .blockIndexOutOfRange := by decide
theorem test_clrcur : (nextOf (exec .clrcur (readyAt 64#7))).map (fun t => t.cursor) = some 0#7 := by decide
theorem test_reserved_micro_stops : faultOf (step (inCommand 0#7 0#7 0x80000#20)) = some .reservedMicroWord := by decide
theorem test_reset_mid_command :
    (nextOf (step { inCommand 5#7 0#7 xorbWord with host := [.rst] })).map (fun t => (t.ready, t.cursor, t.data, t.rsp)) =
      some (false, 0#7, [], []) ∧
    (nextOf (step { inCommand 5#7 0#7 xorbWord with host := [.rst] })).map (fun t => t.uir) = some none := by decide

/-! ### The sequencer (30 R58, R59, 95 P5) -/

theorem test_gen_program_lines :
    genProgram.take 9 = [0x10000#20, 0x2048C#20, 0x2159D#20, 0x226AE#20, 0x237BF#20, 0x205AF#20, 0x216BC#20, 0x2278D#20,
      0x2349E#20] ∧ genProgram.drop 80 = [0x2349E#20, 0x30000#20, 0x40000#20, 0x50000#20, 0x60000#20] := by decide
theorem test_sequencer_wraps :
    (nextOf (step (inCommand 64#7 84#7 0x60000#20))).map (fun t => (t.seq, t.uir, t.cursor)) =
      some (0#7, some xorbWord, 0#7) := by decide

/-! ### Assembler text (30 R61) -/

theorem test_assembly :
    assembly (.qr 0 4 8 12) = ['Q', 'R', ' ', '0', ',', '4', ',', '8', ',', '1', '2'] ∧
    assembly (.encrypt [0x0a#8, 0xff#8]) = ['E', 'N', 'C', 'R', 'Y', 'P', 'T', ' ', '0', 'a', ' ', 'f', 'f'] ∧
    responseLine (.error .notReady) = ['E', 'R', 'R', ' ', 'N', 'o', 't', 'R', 'e', 'a', 'd', 'y'] := by decide

/-! ### Witnesses: states and operands that meet each obligation's hypotheses, at the ends of their ranges -/

theorem witness_WordOperationLaws : (0 < 1 ∧ 1 < 32) ∧ 0 < 31 ∧ 31 < 32 := by decide
theorem witness_CodecDecodesLittleEndian :
    0 + 4 ≤ [1#8, 2#8, 3#8, 4#8].length ∧ [1#8, 2#8, 3#8, 4#8].length < 1 + 4 := by decide
theorem witness_CodecInverse : 0 < 4 ∧ 3 < 4 := by decide
theorem witness_QuarterRoundLanes :
    ([0, 4, 8, 12] : List (Fin 16)).Nodup ∧ (15 : Fin 16) ∉ ([0, 4, 8, 12] : List (Fin 16)) ∧
      ([15, 0, 1, 2] : List (Fin 16)).Nodup := by decide
theorem witness_RepeatedIndexStops :
    ¬([0, 0, 1, 2] : List (Fin 16)).Nodup ∧ ¬([0, 1, 15, 15] : List (Fin 16)).Nodup := by decide
theorem witness_QuarterRoundBijective : ([3, 4, 9, 14] : List (Fin 16)).Nodup := by decide
theorem witness_RoundLanesIndependent :
    columnGroups.reverse.Perm columnGroups ∧ diagonalGroups.reverse.Perm diagonalGroups :=
  ⟨List.reverse_perm _, List.reverse_perm _⟩
theorem witness_PermuteProperties : (readyAt 0#7).M = (readyAt 64#7).M := rfl
theorem witness_SerWritesBlock : (0 < 16 ∧ 0 < 4) ∧ 15 < 16 ∧ 3 < 4 := by decide
theorem witness_BlockBytes : (0 < 16 ∧ 0 < 4) ∧ 15 < 16 ∧ 3 < 4 := by decide
theorem witness_CtrincCarries : (0 : Fin 16) ≠ 12 ∧ (0 : Fin 16) ≠ 13 ∧ (15 : Fin 16) ≠ 12 ∧ (15 : Fin 16) ≠ 13 := by decide
theorem witness_XorbEmitsByte :
    ((inCommand 0#7 0#7 xorbWord).data = [0x11#8] ∧ (inCommand 0#7 0#7 xorbWord).cursor.toNat ≤ 63) ∧
    (inCommand 63#7 0#7 xorbWord).data = [0x11#8] ∧ (inCommand 63#7 0#7 xorbWord).cursor.toNat ≤ 63 := by decide
theorem witness_XorbStopsOutsidePrecondition :
    (readyAt 0#7).data = [] ∧ (inCommand 64#7 0#7 xorbWord).data ≠ [] ∧ 64 ≤ (inCommand 64#7 0#7 xorbWord).cursor.toNat := by
  decide
theorem witness_InitLoadsClassic : (zeros 32).length = 32 ∧ (zeros 8).length = 8 ∧ 0 < 8 ∧ 7 < 8 ∧ 1 < 2 := by decide
theorem witness_InitLoadsIetf : (zeros 32).length = 32 ∧ (zeros 12).length = 12 ∧ 0 < 8 ∧ 7 < 8 ∧ 2 < 3 := by decide
theorem witness_InitRejectsLengths :
    (zeros 31).length ≠ 32 ∧ (zeros 33).length ≠ 32 ∧ (zeros 32).length = 32 ∧ (zeros 7).length ≠ 8 ∧ (zeros 7).length ≠ 12 ∧
    (zeros 13).length ≠ 8 ∧ (zeros 13).length ≠ 12 := by decide
theorem witness_InitIdempotent :
    (∃ t u, exec (.init (zeros 32) (zeros 8)) (readyAt 5#7) = .next t ∧ exec (.init (zeros 32) (zeros 8)) t = .next u) ∧
    ∃ t u, exec (.init [] []) (readyAt 5#7) = .next t ∧ exec (.init [] []) t = .next u :=
  ⟨⟨_, _, rfl, rfl⟩, ⟨_, _, rfl, rfl⟩⟩
theorem witness_DataCommandErrors : State.reset.ready = false ∧ (readyAt 64#7).ready = true := by decide
theorem witness_DataCommandCompletes :
    (∀ c ∈ [0#7, 1#7, 63#7, 64#7], AtBoundary (readyAt c) ∧ (readyAt c).ready = true ∧ (readyAt c).cursor.toNat ≤ 64) ∧
    [1#8] ≠ [] ∧ genRuns 63 1 = 0 ∧ genRuns 64 1 ≠ 0 ∧ genRuns 0 1 ≠ 0 := by decide
theorem witness_CursorEvolution :
    (∀ c ∈ [0#7, 1#7, 63#7, 64#7], (inCommand c 0#7 xorbWord).data ≠ [] ∧ (inCommand c 0#7 xorbWord).cursor.toNat ≤ 64) ∧
    1 ≤ (inCommand 1#7 0#7 xorbWord).cursor.toNat ∧ (inCommand 63#7 0#7 xorbWord).cursor.toNat ≤ 63 := by decide
theorem witness_OutputByteCausal :
    AtBoundary (readyAt 5#7) ∧ (readyAt 5#7).ready = true ∧ (readyAt 5#7).cursor.toNat ≤ 64 ∧ 0 < [1#8, 2#8].length ∧
    0 < [1#8, 3#8].length ∧ [1#8, 2#8][0]? = [1#8, 3#8][0]? ∧
    (∃ t, exec (dataCommand true [1#8, 2#8]) (readyAt 5#7) = .next t) ∧
    ∃ t, exec (dataCommand true [1#8, 3#8]) (readyAt 5#7) = .next t :=
  ⟨by decide, by decide, by decide, by decide, by decide, by decide, ⟨_, rfl⟩, ⟨_, rfl⟩⟩
theorem witness_InitStartsStream :
    AtBoundary State.reset ∧ (zeros 32).length = 32 ∧ ((zeros 8).length = 8 ∨ (zeros 8).length = 12) ∧
    ((zeros 12).length = 8 ∨ (zeros 12).length = 12) := by decide
/-- Position 0. -/
theorem witness_position_start : AtPosition .classic (zeroWords 0#32 0#32) 0 freshZero :=
  ⟨by decide, rfl, rfl, (withCounter_self .classic (zeroWords 0#32 0#32)).symm, rfl, fun h => absurd rfl h⟩
/-- Position 64: the end of the first block. -/
theorem witness_position_block (v : Variant) : AtPosition v (zeroWords 0#32 0#32) 64 (afterOneBlock v) :=
  ⟨⟨rfl, rfl, rfl, rfl⟩, rfl, rfl, rfl, rfl, fun _ => ⟨rfl, rfl⟩⟩
theorem witness_StreamPositionAdvances :
    AtPosition .classic (zeroWords 0#32 0#32) 0 freshZero ∧ AtPosition .ietf (zeroWords 0#32 0#32) 64 (afterOneBlock .ietf) ∧
    [1#8] ≠ [] :=
  ⟨witness_position_start, witness_position_block .ietf, by decide⟩
theorem witness_CounterAfter4096Bytes :
    AtBoundary State.reset ∧ (zeros 32).length = 32 ∧ (zeros 8).length = 8 ∧ (zeros 4096).length = 4096 :=
  ⟨by decide, by decide, by decide, List.length_replicate⟩
theorem witness_SplitInvariance :
    (∀ c ∈ [0#7, 1#7, 63#7, 64#7], AtBoundary (readyAt c) ∧ (readyAt c).ready = true ∧ (readyAt c).cursor.toNat ≤ 64) ∧
    [(true, [1#8]), (false, [2#8, 3#8])] ≠ [] ∧ ∀ p ∈ [(true, [1#8]), (false, [2#8, 3#8])], p.2 ≠ [] := by decide
theorem witness_RoundTripTwoCores :
    AtBoundary State.reset ∧ AtBoundary (readyAt 5#7) ∧ (zeros 32).length = 32 ∧ ((zeros 12).length = 8 ∨ (zeros 12).length = 12) ∧
    (∀ p ∈ [(true, [1#8, 2#8, 3#8])], p.2 ≠ []) ∧ (∀ q ∈ [(false, [1#8]), (true, [2#8, 3#8])], q.2 ≠ []) ∧
    totalBytes [(true, [1#8, 2#8, 3#8])] = totalBytes [(false, [1#8]), (true, [2#8, 3#8])] ∧ [1#8] ≠ [] := by decide
theorem witness_VariantsAgreeUntilCarry :
    (zeros 32).length = 32 ∧ (zeros 8).length = 8 ∧ 0 < 2 ^ 32 ∧ 2 ^ 32 - 1 < 2 ^ 32 := by decide
/-- An IETF stream on the zero words after `2^38` bytes: the counter has wrapped to 0, the last block is `2^32 - 1`. -/
def afterWrap : State :=
  { readyAt 64#7 with
    S := withCounter .ietf (zeroWords 0#32 0#32) (2 ^ 32), variant := .ietf,
    B := blockAt .ietf (zeroWords 0#32 0#32) (2 ^ 32 - 1),
    M := resultWords (withCounter .ietf (zeroWords 0#32 0#32) (2 ^ 32 - 1)) }

/-- The same core is at position 64 and at position 64 + 2^38; a fresh stream is at 0 and the wrapped one at 2^38. -/
theorem witness_IetfKeystreamPeriod :
    (AtPosition .ietf (zeroWords 0#32 0#32) 64 (afterOneBlock .ietf) ∧
      AtPosition .ietf (zeroWords 0#32 0#32) (64 + 2 ^ 38) (afterOneBlock .ietf)) ∧
    (AtPosition .ietf (zeroWords 0#32 0#32) 0 { freshZero with variant := .ietf } ∧
      AtPosition .ietf (zeroWords 0#32 0#32) (0 + 2 ^ 38) afterWrap) ∧ [1#8] ≠ [] := by
  refine ⟨⟨witness_position_block .ietf, ⟨rfl, rfl, rfl, rfl⟩, rfl, rfl, ?_, by decide, fun _ => ⟨?_, ?_⟩⟩,
    ⟨⟨by decide, rfl, rfl, (withCounter_self .ietf (zeroWords 0#32 0#32)).symm, rfl, fun h => absurd rfl h⟩,
      ⟨rfl, rfl, rfl, rfl⟩, rfl, rfl, ?_, by decide, fun _ => ⟨?_, ?_⟩⟩, by decide⟩
  · exact withCounter_congr .ietf _ _ _ (by decide)
  · exact congrArg blockFunction (withCounter_congr .ietf _ _ _ (by decide))
  · exact congrArg resultWords (withCounter_congr .ietf _ _ _ (by decide))
  · exact withCounter_congr .ietf _ _ _ (by decide)
  · exact congrArg blockFunction (withCounter_congr .ietf _ _ _ (by decide))
  · exact congrArg resultWords (withCounter_congr .ietf _ _ _ (by decide))
theorem witness_NonceReuseRelatesOutputs :
    AtPosition .classic (zeroWords 0#32 0#32) 0 freshZero ∧
    AtPosition .classic (zeroWords 0#32 0#32) 0 { freshZero with rsp := [[0x00#8]] } ∧ [1#8] ≠ [] ∧ [1#8].length = [2#8].length :=
  ⟨witness_position_start, witness_position_start, by decide, by decide⟩
theorem witness_KeyAndNonceOnlyByInit :
    (∀ key nonce, Instr.ctrinc ≠ .init key nonce) ∧ (∃ t, exec .ctrinc (readyAt 5#7) = .next t) ∧ (13 : Fin 16) ≠ 12 ∧
    ({ readyAt 5#7 with variant := .ietf } : State).variant = .ietf ∧ (0 : Fin 16) ≠ 12 ∧ (0 : Fin 16) ≠ 13 :=
  ⟨fun _ _ h => (nomatch h), ⟨_, rfl⟩, by decide, rfl, by decide, by decide⟩
theorem witness_ControlBitsOnlyByInit :
    (∃ t, exec .clrcur (readyAt 64#7) = .next t) ∧ (∀ key nonce, Instr.clrcur ≠ .init key nonce) ∧ Instr.clrcur ≠ .ser ∧
    (∀ d, Instr.clrcur ≠ .encrypt d) ∧ (∀ d, Instr.clrcur ≠ .decrypt d) ∧ Instr.clrcur ≠ .ldmix ∧ Instr.clrcur ≠ .ffwd ∧
    ∀ a b c d, Instr.clrcur ≠ .qr a b c d :=
  ⟨⟨_, rfl⟩, fun _ _ h => (nomatch h), by decide, fun _ h => (nomatch h), fun _ h => (nomatch h), by decide, by decide,
    fun _ _ _ _ h => (nomatch h)⟩
theorem witness_PortsKept :
    (∃ t, exec (.encrypt []) (readyAt 0#7) = .next t) ∧ ∃ t, exec .ldmix (readyAt 0#7) = .next t :=
  ⟨⟨_, rfl⟩, ⟨_, rfl⟩⟩
theorem witness_DecodeEncode :
    (Instr.init (zeros 255) (zeros 255)).wellFormed = true ∧ (Instr.qr 15 14 1 0).wellFormed = true := by decide +kernel
theorem witness_EncodeDecode :
    decode (.frame [0x01#8, 0x00#8, 0x00#8]) = .ok (.init [] []) ∧ decode (.micro 0x2048C#20) = .ok (.qr 0 4 8 12) := by decide
theorem witness_GenProgramTable : (0 < 10 ∧ 0 < 8) ∧ 9 < 10 ∧ 7 < 8 := by decide
theorem witness_ReservedMicroWordsExactly :
    (∀ i, decodeMicro 0x80000#20 ≠ .ok i) ∧ NoResetNext (inCommand 0#7 0#7 0x80000#20) ∧
    (inCommand 0#7 0#7 0x80000#20).uir = some 0x80000#20 :=
  ⟨fun _ h => (nomatch h), by decide, rfl⟩
theorem witness_StepRunsFrame :
    (placeFrame [0x02#8] (readyAt 5#7)).uir = none ∧
    (placeFrame [0x02#8] (readyAt 5#7)).host = .frame [0x02#8] :: [] ∧ decodeFrame [0x02#8] = .ok (.encrypt []) := by decide
theorem witness_StepAnswersIllegal :
    (placeFrame [0x04#8] State.reset).uir = none ∧ (placeFrame [0x04#8] State.reset).host = .frame [0x04#8] :: [] ∧
    decodeFrame [0x04#8] = .error .illegalOpcode := ⟨rfl, rfl, by decide⟩
/-- The four cases of what follows a micro-word: last byte, another byte, a word inside GEN, `GEN[84]`. -/
theorem witness_StepRunsMicroWord :
    (NoResetNext (inCommand 5#7 0#7 xorbWord) ∧ decodeMicro xorbWord = .ok .xorb ∧
      (nextOf (exec .xorb (inCommand 5#7 0#7 xorbWord))).map (fun t => t.data) = some []) ∧
    (nextOf (exec .xorb { inCommand 63#7 0#7 xorbWord with data := [1#8, 2#8] })).map (fun t => (t.data, t.cursor)) =
      some ([2#8], 64#7) ∧
    (nextOf (exec .xorb { inCommand 62#7 0#7 xorbWord with data := [1#8, 2#8] })).map (fun t => (t.data, t.cursor)) =
      some ([2#8], 63#7) ∧
    (decodeMicro 0x10000#20 = .ok .ldmix ∧ (0x10000#20 : MicroWord) ≠ 0x70000#20 ∧
      (nextOf (exec .ldmix (inCommand 0#7 0#7 0x10000#20))).map (fun t => t.seq.toNat) = some 0) ∧
    (decodeMicro 0x50000#20 = .ok .ctrinc ∧
      (nextOf (exec .ctrinc (inCommand 0#7 83#7 0x50000#20))).map (fun t => t.seq.toNat) = some 83) ∧
    decodeMicro 0x60000#20 = .ok .clrcur ∧ (0x60000#20 : MicroWord) ≠ 0x70000#20 ∧
      (nextOf (exec .clrcur (inCommand 0#7 84#7 0x60000#20))).map (fun t => t.seq.toNat) = some 84 := by decide
theorem witness_ResetFromAnyState :
    ({ inCommand 5#7 0#7 xorbWord with host := [.rst] } : State).host = .rst :: [] ∧
    ({ readyAt 5#7 with host := [.cutFrame [0x02#8, 0x00#8]] } : State).uir = none ∧
    ∃ f, ({ readyAt 5#7 with host := [.cutFrame [0x02#8, 0x00#8]] } : State).host = .cutFrame f :: [] :=
  ⟨rfl, rfl, ⟨_, rfl⟩⟩
theorem witness_IdleKeepsState : (readyAt 5#7).uir = none ∧ (readyAt 5#7).host = [] := by decide
theorem witness_GenMicroProgramIsGen :
    NoResetNext (inCommand 64#7 0#7 0x10000#20) ∧ (inCommand 64#7 0#7 0x10000#20).seq = 0#7 ∧
    (inCommand 64#7 0#7 0x10000#20).uir = some 0x10000#20 := by decide
theorem witness_MicroViewEqualsAtomicCommand :
    (∀ c ∈ [0#7, 1#7, 63#7, 64#7], AtBoundary (readyAt c) ∧ NoResetNext (readyAt c) ∧ (readyAt c).ready = true ∧
      (readyAt c).cursor.toNat ≤ 64) ∧ [1#8] ≠ [] := by decide
/-- The invariant holds at a boundary and at both ends of what a command passes through. -/
theorem witness_StepKeepsInvariant :
    (readyAt 64#7).StepInv ∧ (inCommand 63#7 0#7 xorbWord).StepInv ∧ (inCommand 64#7 84#7 0x60000#20).StepInv := by
  refine ⟨⟨by decide, by decide, fun _ => by decide, fun _ => by decide, fun w h => (nomatch h)⟩,
    ⟨by decide, by decide, fun _ => by decide, fun h => (nomatch h), fun w h => ?_⟩,
    ⟨by decide, by decide, fun _ => by decide, fun h => (nomatch h), fun w h => ?_⟩⟩ <;>
  · injection h with h; subst h; decide
theorem witness_OneResponsePerFrame :
    (placeFrame [0x02#8, 0x00#8] (readyAt 64#7)).StepInv ∧ (placeFrame [0x02#8, 0x00#8] (readyAt 64#7)).uir = none ∧
    (placeFrame [0x02#8, 0x00#8] (readyAt 64#7)).host = .frame [0x02#8, 0x00#8] :: [] :=
  ⟨⟨by decide, by decide, fun _ => by decide, fun _ => by decide, fun w h => (nomatch h)⟩, rfl, rfl⟩
theorem witness_BlockBufferInvariant :
    (afterOneBlock .classic).StepInv ∧ (afterOneBlock .classic).uir = none ∧ (afterOneBlock .classic).BlockInv ∧
    (∃ t, step (afterOneBlock .classic) = .next t) ∧ (afterOneBlock .classic).ready = true ∧
    (afterOneBlock .classic).cursor ≠ 0#7 := by
  refine ⟨⟨by decide, by decide, fun _ => by decide, fun _ => ⟨rfl, rfl, rfl, rfl⟩, fun w h => (nomatch h)⟩, rfl, fun _ _ => ?_, ⟨_, rfl⟩, rfl,
    by decide⟩
  show blockFunction (withCounter .classic (zeroWords 0#32 0#32) 0) = blockFunction _
  exact congrArg blockFunction ((withCounter_congr .classic _ _ _ (by decide)).trans (withCounter_withCounter .classic _ _ _).symm)

end Sys2Proof.Tests
end

section
/-! SUPPORT. The family 10_state: all an instruction and a step can do, and the statements about who writes what, the
reset values, the idle core and the invariants. -/

namespace Sys2Proof.Machine

/-! ### The state's operations: what a stopped or completed operation says -/

/-- A composition completes where both parts do. -/
theorem andThen_eq_next {r : Result} {f : State → Result} {t : State} :
    andThen r f = .next t ↔ ∃ u, r = .next u ∧ f u = .next t := by
  cases r <;> simp [andThen]

/-- All an XORB that completes can have done. -/
theorem xorb_eq_next {s t : State} (h : xorb s = .next t) :
    s.cursor.toNat < 64 ∧ ∃ x rest out, s.data = x :: rest ∧
      t = { s with data := rest, out := out, cursor := s.cursor + 1#7 } := by
  rcases hd : s.data with _ | ⟨x, rest⟩
  · simp [xorb, hd] at h
  · by_cases hc : s.cursor.toNat < 64
    · rw [xorb_of_cons s x rest hd hc] at h
      exact ⟨hc, x, rest, _, rfl, (Host.Outcome.next.inj h).symm⟩
    · simp [xorb, hd, hc] at h

/-- A block is needed at cursor 0 and at cursor 64. -/
theorem blockNeeded_iff (s : State) : blockNeeded s = true ↔ s.cursor = 0#7 ∨ s.cursor = 64#7 := by
  simp [blockNeeded]

/-- A byte step completes only from a legal cursor. -/
theorem cursor_le_of_byteStep {s t : State} (h : byteStep s = .next t) : s.cursor.toNat ≤ 64 := by
  by_cases hb : blockNeeded s = true
  · rcases (blockNeeded_iff s).1 hb with hc | hc <;> simp [hc]
  · rw [byteStep, if_neg hb] at h
    exact (xorb_eq_next h).1.le

/-- The words outside the counter field: `S[13]` belongs to it in the classic variant only. -/
theorem withCounter_get_other (v : Variant) (s : Words) (n : Nat) (k : Fin 16) (h12 : k ≠ 12)
    (h13 : k ≠ 13 ∨ v = .ietf) : (withCounter v s n)[k] = s[k] := by
  have e12 : ¬ 12 = k.val := fun e => h12 (Fin.ext e.symm)
  cases v with
  | classic =>
    have e13 : ¬ 13 = k.val := fun e => (h13.resolve_right (by simp)) (Fin.ext e.symm)
    simp [withCounter, e12, e13]
  | ietf => simp [withCounter, e12]

/-- There is at least one counter value. -/
theorem counterRange_pos (v : Variant) : 0 < counterRange v := by cases v <;> simp [counterRange]

/-! ### The data commands -/

/-- How many blocks a data command of `bytes` generates from `s`. -/
abbrev runsFor (bytes : List Byte) (s : State) : Nat := genRuns s.cursor.toNat bytes.length

/-- What ENCRYPT and DECRYPT of `bytes` do where they succeed (44_stream R112), field by field. -/
structure Streamed (bytes : List Byte) (s t : State) : Prop where
  S : t.S = withCounter s.variant s.S (counterValue s.variant s.S + runsFor bytes s)
  cursor : t.cursor.toNat = cursorAfterBytes s.cursor.toNat bytes.length
  variant : t.variant = s.variant
  ready : t.ready = s.ready
  uir : t.uir = none
  data : t.data = []
  out : t.out = []
  host : t.host = s.host
  resets : t.resets = s.resets
  rsp : t.rsp = s.rsp ++ [statusOk :: xorWith (upcomingByte s) bytes]
  kept : runsFor bytes s = 0 → t.seq = s.seq ∧ t.M = s.M ∧ t.B = s.B
  generated : runsFor bytes s ≠ 0 → t.seq = 0#7 ∧
    t.M = resultWords (withCounter s.variant s.S (counterValue s.variant s.S + runsFor bytes s - 1)) ∧
    t.B = blockAt s.variant s.S (counterValue s.variant s.S + runsFor bytes s - 1)

/-- What a data command can do: an error that keeps `ready` (60_exceptions R124, R125), or the stream. -/
inductive DataEffect (bytes : List Byte) (s : State) : State → Prop
  | error (e : ErrorKind) (he : clearsReady e = false) : DataEffect bytes s (raise e s)
  | stream {t : State} (hne : bytes ≠ []) (h : Streamed bytes s t) : DataEffect bytes s t

/-- The two tests of a data command (60_exceptions R124, R125). -/
theorem exec_dataCommand_error (enc : Bool) {bytes : List Byte} {s : State} (h : s.ready = false ∨ bytes = []) :
    ∃ e, clearsReady e = false ∧ exec (dataCommand enc bytes) s = .next (raise e s) := by
  rw [exec_dataCommand, xorTransform]
  by_cases hr : s.ready = false
  · exact ⟨.notReady, rfl, if_pos hr⟩
  · exact ⟨.emptyInput, rfl, by rw [if_neg hr, if_pos (h.resolve_left hr)]⟩

/-- Past its two tests a data command is its byte steps and the response. -/
theorem exec_dataCommand_stream (enc : Bool) {bytes : List Byte} {s : State} (h : ¬(s.ready = false ∨ bytes = [])) :
    exec (dataCommand enc bytes) s =
      andThen (streamBytes bytes.length (acceptData bytes s)) fun t => .next (finishCommand t) := by
  rw [not_or] at h
  rw [exec_dataCommand, xorTransform, if_neg h.1, if_neg h.2]

/-- From a legal cursor the byte steps of a command complete, and their answer is the stream's. -/
theorem streamBytes_streamed (bytes : List Byte) (s : State) (hc : s.cursor.toNat ≤ 64) :
    ∃ u, streamBytes bytes.length (acceptData bytes s) = .next u ∧ Streamed bytes s (finishCommand u) := by
  obtain ⟨u, hu, -, hout, -, hcur, hv, hr, -, hh, hrsp, hres, hS, hkept, hgen⟩ :=
    streamBytes_spec bytes (acceptData bytes s) rfl hc
  have hup : upcomingByte (acceptData bytes s) = upcomingByte s := rfl
  exact ⟨u, hu,
    { S := hS, cursor := hcur, variant := hv, ready := hr, uir := rfl, data := rfl, out := rfl, host := hh,
      resets := hres, rsp := by simp [hrsp, hout, hup], kept := hkept, generated := hgen }⟩

/-- The byte steps of a command complete only from a legal cursor. -/
theorem cursor_le_of_streamBytes {bytes : List Byte} {s u : State} (hne : bytes ≠ [])
    (h : streamBytes bytes.length (acceptData bytes s) = .next u) : s.cursor.toNat ≤ 64 := by
  obtain ⟨x, rest, rfl⟩ := List.exists_cons_of_ne_nil hne
  rw [List.length_cons, streamBytes, andThen_eq_next] at h
  obtain ⟨v, hv, -⟩ := h
  simpa using cursor_le_of_byteStep hv

/-- From a legal cursor a data command completes. -/
theorem exec_dataCommand_completes (enc : Bool) (bytes : List Byte) (s : State) (hc : s.cursor.toNat ≤ 64) :
    ∃ t, exec (dataCommand enc bytes) s = .next t ∧ DataEffect bytes s t := by
  by_cases hb : s.ready = false ∨ bytes = []
  · obtain ⟨e, he, hx⟩ := exec_dataCommand_error enc hb
    exact ⟨_, hx, .error e he⟩
  · obtain ⟨u, hu, hst⟩ := streamBytes_streamed bytes s hc
    exact ⟨_, by rw [exec_dataCommand_stream enc hb, hu, andThen], .stream (not_or.1 hb).2 hst⟩

/-- All a data command that completes can have done, from any state. -/
theorem exec_dataCommand_effect {enc : Bool} {bytes : List Byte} {s t : State}
    (h : exec (dataCommand enc bytes) s = .next t) : DataEffect bytes s t := by
  by_cases hb : s.ready = false ∨ bytes = []
  · obtain ⟨e, he, hx⟩ := exec_dataCommand_error enc hb
    exact Host.Outcome.next.inj (hx.symm.trans h) ▸ .error e he
  · have hs := h
    rw [exec_dataCommand_stream enc hb, andThen_eq_next] at hs
    obtain ⟨v, hv, -⟩ := hs
    obtain ⟨u, hu, heff⟩ := exec_dataCommand_completes enc bytes s (cursor_le_of_streamBytes (not_or.1 hb).2 hv)
    exact Host.Outcome.next.inj (hu.symm.trans h) ▸ heff

/-! ### The micro-operations -/

/-- What a micro-operation leaves unchanged, and which words of `S` it may write (10_state R12 to R21). -/
structure MicroEffect (i : Instr) (s t : State) : Prop where
  S : t.S = s.S ∨ t.S = incrementCounter s.variant s.S
  M : i ≠ .ldmix → i ≠ .ffwd → (∀ a b c d, i ≠ .qr a b c d) → t.M = s.M
  B : i ≠ .ser → t.B = s.B
  cursor : i ≠ .clrcur → i ≠ .xorb → t.cursor = s.cursor
  data : i ≠ .xorb → t.data = s.data
  variant : t.variant = s.variant
  ready : t.ready = s.ready
  seq : t.seq = s.seq
  uir : t.uir = s.uir
  host : t.host = s.host
  rsp : t.rsp = s.rsp
  resets : t.resets = s.resets

/-! The effect of each micro-operation, from the field lemmas of its update. -/

theorem microEffect_ldmix (s : State) : MicroEffect .ldmix s (ldmix s) := by constructor <;> simp
theorem microEffect_ffwd (s : State) : MicroEffect .ffwd s (ffwd s) := by constructor <;> simp
theorem microEffect_ser (s : State) : MicroEffect .ser s (ser s) := by constructor <;> simp
theorem microEffect_ctrinc (s : State) : MicroEffect .ctrinc s (ctrinc s) := by constructor <;> simp
theorem microEffect_clrcur (s : State) : MicroEffect .clrcur s (clrcur s) := by constructor <;> simp
theorem microEffect_qr (a b c d : Fin 16) (m : Words) (s : State) :
    MicroEffect (.qr a b c d) s { s with M := m } := by constructor <;> simp
theorem microEffect_xorb {s t : State} (h : xorb s = .next t) : MicroEffect .xorb s t := by
  obtain ⟨-, x, rest, out, -, rfl⟩ := xorb_eq_next h
  constructor <;> simp

/-- Where QR completes: on distinct indices (30_encoding R57). -/
theorem exec_qr_eq_next {a b c d : Fin 16} {s t : State} :
    exec (.qr a b c d) s = .next t ↔
      distinctIndices a b c d = true ∧ t = { s with M := quarterRound s.M a b c d } := by
  rw [exec, execQr]
  by_cases hd : distinctIndices a b c d = true
  · rw [if_pos hd, Host.Outcome.next.injEq]
    exact ⟨fun h => ⟨hd, h.symm⟩, fun h => h.2.symm⟩
  · rw [if_neg hd]
    exact ⟨fun h => (nomatch h), fun h => absurd h.1 hd⟩

/-- All an instruction that completes can have done: INIT's cases are `execInit_cases`. -/
theorem exec_cases {i : Instr} {s t : State} (h : exec i s = .next t) :
    (∃ key nonce, i = .init key nonce) ∨ (∃ enc data, i = dataCommand enc data ∧ DataEffect data s t) ∨
      MicroEffect i s t := by
  cases i with
  | init key nonce => exact .inl ⟨key, nonce, rfl⟩
  | encrypt data => exact .inr (.inl ⟨true, data, rfl, exec_dataCommand_effect (enc := true) h⟩)
  | decrypt data => exact .inr (.inl ⟨false, data, rfl, exec_dataCommand_effect (enc := false) h⟩)
  | ldmix => exact .inr (.inr (Host.Outcome.next.inj h ▸ microEffect_ldmix s))
  | qr a b c d => exact .inr (.inr ((exec_qr_eq_next.1 h).2 ▸ microEffect_qr a b c d _ s))
  | ffwd => exact .inr (.inr (Host.Outcome.next.inj h ▸ microEffect_ffwd s))
  | ser => exact .inr (.inr (Host.Outcome.next.inj h ▸ microEffect_ser s))
  | ctrinc => exact .inr (.inr (Host.Outcome.next.inj h ▸ microEffect_ctrinc s))
  | clrcur => exact .inr (.inr (Host.Outcome.next.inj h ▸ microEffect_clrcur s))
  | xorb => exact .inr (.inr (microEffect_xorb h))

/-! ### Who writes what (10_state R12 to R20) -/

/-- Settles O35, by the three kinds of instruction: the counter field is all they write of `S`. -/
theorem keyAndNonceOnlyByInit : Obligations.KeyAndNonceOnlyByInit := by
  intro i s t hni h k h12 h13
  rcases exec_cases h with ⟨key, nonce, rfl⟩ | ⟨enc, bytes, rfl, heff⟩ | hmicro
  · exact absurd rfl (hni key nonce)
  · cases heff with
    | error e he => rfl
    | stream hne hst => rw [hst.S, withCounter_get_other _ _ _ k h12 h13]
  · rcases hmicro.S with hS | hS
    · rw [hS]
    · rw [hS, incrementCounter_eq, withCounter_get_other _ _ _ k h12 h13]

/-- INIT writes neither `M` nor `B` (40_init R68, R71), touches no port, and answers once. -/
theorem execInit_frame {key nonce : List Byte} {s t : State} (h : exec (.init key nonce) s = .next t) :
    t.M = s.M ∧ t.B = s.B ∧ t.host = s.host ∧ t.resets = s.resets ∧ ∃ g, t.rsp = s.rsp ++ [g] := by
  rcases execInit_cases key nonce s with ⟨e, -, hx⟩ | ⟨v, w, -, hx⟩ <;>
  · cases hx.symm.trans h
    exact ⟨rfl, rfl, rfl, rfl, _, rfl⟩

/-- A data command writes neither `variant` nor `ready` (10_state R20), touches no port, and answers once. -/
theorem DataEffect.frame {bytes : List Byte} {s t : State} (h : DataEffect bytes s t) :
    t.variant = s.variant ∧ t.ready = s.ready ∧ t.host = s.host ∧ t.resets = s.resets ∧
      ∃ g, t.rsp = s.rsp ++ [g] := by
  cases h with
  | error e he => exact ⟨rfl, by simp [he], rfl, rfl, _, rfl⟩
  | stream hne hst => exact ⟨hst.variant, hst.ready, hst.host, hst.resets, _, hst.rsp⟩

/-- Settles O36: each clause leaves the kinds of instruction that keep its fields. -/
theorem controlBitsOnlyByInit : Obligations.ControlBitsOnlyByInit := by
  intro i s t h
  rcases exec_cases h with ⟨key, nonce, rfl⟩ | ⟨enc, bytes, rfl, heff⟩ | hmicro
  · obtain ⟨hM, hB, -⟩ := execInit_frame h
    exact ⟨fun hni => absurd rfl (hni key nonce), fun _ _ _ => hB, fun _ _ _ _ _ => hM⟩
  · obtain ⟨hv, hr, -⟩ := heff.frame
    refine ⟨fun _ => ⟨hv, hr⟩, fun _ he hd => ?_, fun _ _ _ he hd => ?_⟩ <;>
    · cases enc with
      | true => exact absurd rfl (he bytes)
      | false => exact absurd rfl (hd bytes)
  · exact ⟨fun _ => ⟨hmicro.variant, hmicro.ready⟩, fun hser _ _ => hmicro.B hser,
      fun hld hff hqr _ _ => hmicro.M hld hff hqr⟩

/-- Settles O37: a command answers once, a micro-operation not at all. -/
theorem portsKept : Obligations.PortsKept := by
  intro i s t h
  rcases exec_cases h with ⟨key, nonce, rfl⟩ | ⟨enc, bytes, rfl, heff⟩ | hmicro
  · obtain ⟨-, -, hh, hres, g, hg⟩ := execInit_frame h
    exact ⟨hh, hres, [g], hg, le_rfl⟩
  · obtain ⟨-, -, hh, hres, g, hg⟩ := heff.frame
    exact ⟨hh, hres, [g], hg, le_rfl⟩
  · exact ⟨hmicro.host, hmicro.resets, [], by simp [hmicro.rsp], Nat.zero_le 1⟩

/-! ### A step from a command boundary -/

/-- `s` with what the host presents next taken off the port. -/
abbrev withHost (rest : List HostAction) (s : State) : State := { s with host := rest }

/-- All a step from a command boundary can do. -/
inductive BoundaryStep (s : State) : State → Prop
  | idle : BoundaryStep s s
  | reset (rest : List HostAction) : BoundaryStep s (hardwareReset (withHost rest s))
  | error (rest : List HostAction) (e : ErrorKind) : BoundaryStep s (raise e (withHost rest s))
  | load (rest : List HostAction) {key nonce : List Byte} {v : Variant} {w : Words} (h : Loads key nonce v w) :
      BoundaryStep s (respondOk [] (startStream v w (withHost rest s)))
  | stream (rest : List HostAction) {bytes : List Byte} {t : State} (hne : bytes ≠ [])
      (h : Streamed bytes (withHost rest s) t) : BoundaryStep s t

/-- A frame is answered: by an error, by a load, or by the stream (30_encoding R46 to R52). -/
theorem runFrame_boundaryStep (f : Frame) (rest : List HostAction) (s : State) (hc : s.cursor.toNat ≤ 64) :
    ∃ t, runFrame f (withHost rest s) = .next t ∧ BoundaryStep s t := by
  unfold runFrame
  rcases hd : decodeFrame f with _ | i
  · exact ⟨_, rfl, .error rest .illegalCommand⟩
  · rcases decodeFrame_cases f i hd with ⟨key, nonce, rfl, -⟩ | ⟨enc, bytes, rfl, -⟩
    · rcases execInit_cases key nonce (withHost rest s) with ⟨e, -, hx⟩ | ⟨v, w, hl, hx⟩
      · exact ⟨_, hx, .error rest e⟩
      · exact ⟨_, hx, .load rest hl⟩
    · obtain ⟨t, ht, heff⟩ := exec_dataCommand_completes enc bytes (withHost rest s) hc
      refine ⟨t, ht, ?_⟩
      cases heff with
      | error e he => exact .error rest e
      | stream hne hst => exact .stream rest hne hst

/-- With nothing in progress a step takes what the host presents. -/
theorem step_of_uir_none {s : State} (hu : s.uir = none) : step s = takeHost s := by
  unfold step takeHost
  rcases s.host with _ | ⟨_ | _ | _, rest⟩ <;> simp [hu]

/-- From a command boundary with a legal cursor a step completes, in one of these ways. -/
theorem step_boundaryStep (s : State) (hu : s.uir = none) (hc : s.cursor.toNat ≤ 64) :
    ∃ t, step s = .next t ∧ BoundaryStep s t := by
  rw [step_of_uir_none hu, takeHost]
  rcases s.host with _ | ⟨f | _ | f, rest⟩
  · exact ⟨s, rfl, .idle⟩
  · exact runFrame_boundaryStep f rest s hc
  · exact ⟨_, rfl, .reset rest⟩
  · exact ⟨_, rfl, .reset rest⟩

/-- Settles O49, by induction on the number of steps: the idle step answers its own state. -/
theorem idleKeepsState : Obligations.IdleKeepsState := by
  intro s hu hh k
  have hstep : step s = .next s := by rw [step_of_uir_none hu, takeHost, hh]
  induction k with
  | zero => rfl
  | succ k ih => rw [run_add k 1 s s ih, run_one s s hstep]

/-! ### The invariants at a command boundary -/

/-- The step invariant at a command boundary. -/
theorem stepInv_of_atBoundary {s : State} (hb : AtBoundary s) (hc : s.cursor.toNat ≤ 64)
    (hk : s.ready = true → ConstantsLoaded s) : s.StepInv := by
  have ⟨hu, _, _, hseq⟩ := hb
  exact ⟨hc, by simp [hseq], hk, fun _ => hb, fun w hw => by simp [hu] at hw⟩

/-- Just after a reset the core is idle and not ready, so no constants are asked of it. -/
theorem stepInv_of_afterReset {s : State} (h : AfterReset s) : s.StepInv := by
  obtain ⟨hr, -, hc, hb⟩ := h
  exact stepInv_of_atBoundary hb (by simp [hc]) (by simp [hr])

/-- Before an INIT the block buffer is free (10_state R24). -/
theorem blockInv_of_not_ready {s : State} (h : s.ready = false) : s.BlockInv := by
  intro hr
  simp [h] at hr

/-- The first reset, and every later one, gives the reset values. -/
theorem afterReset_reset : AfterReset State.reset := ⟨rfl, rfl, rfl, rfl, rfl, rfl, rfl⟩

theorem afterReset_hardwareReset (s : State) : AfterReset (hardwareReset s) :=
  ⟨hardwareReset_ready s, hardwareReset_variant s, hardwareReset_cursor s, hardwareReset_uir s, hardwareReset_data s,
    hardwareReset_out s, hardwareReset_seq s⟩

/-- Settles O48, field by field of `State.reset`. -/
theorem resetValues : Obligations.ResetValues := ⟨rfl, rfl, rfl, rfl, rfl, rfl, rfl⟩

/-- Settles O54: the reset state is idle and not ready. -/
theorem invariantAtReset : Obligations.InvariantAtReset :=
  ⟨stepInv_of_afterReset afterReset_reset, blockInv_of_not_ready rfl⟩

/-- The constants stand where the words below the key are kept. -/
theorem constantsLoaded_congr {s t : State} (h : ∀ k (hk : k < 4), t.S[k] = s.S[k]) (hs : ConstantsLoaded s) :
    ConstantsLoaded t := by
  obtain ⟨h0, h1, h2, h3⟩ := hs
  exact ⟨by rw [h 0 (by decide), h0], by rw [h 1 (by decide), h1], by rw [h 2 (by decide), h2],
    by rw [h 3 (by decide), h3]⟩

/-- A loaded state has the constants (40_init R68). -/
theorem constantsLoaded_of_loads {key nonce : List Byte} {v : Variant} {s : State} (h : Loads key nonce v s.S) :
    ConstantsLoaded s := by
  obtain ⟨-, -, hload⟩ := h
  exact loadState_constants v key nonce s.S hload

/-- The cursor a command leaves is legal (44_stream R111). -/
theorem cursorAfterBytes_le {c n : Nat} (hc : c ≤ 64) : cursorAfterBytes c n ≤ 64 := by
  unfold cursorAfterBytes
  split <;> omega

/-- A successful data command ends at a command boundary if it began at one. -/
theorem Streamed.atBoundary {bytes : List Byte} {s t : State} (h : Streamed bytes s t) (hseq : s.seq = 0#7) :
    AtBoundary t := by
  refine ⟨h.uir, h.data, h.out, ?_⟩
  by_cases hz : runsFor bytes s = 0
  · rw [(h.kept hz).1, hseq]
  · exact (h.generated hz).1

/-- A successful data command keeps the constants. -/
theorem Streamed.constantsLoaded {bytes : List Byte} {s t : State} (h : Streamed bytes s t)
    (hs : ConstantsLoaded s) : ConstantsLoaded t :=
  constantsLoaded_congr (fun k hk => by simp [h.S, withCounter_get_low _ _ _ k (by omega : k < 12)]) hs

/-- A step from a command boundary ends at a command boundary with the invariant. -/
theorem BoundaryStep.stepInv {s t : State} (h : BoundaryStep s t) (hu : s.uir = none) (hs : s.StepInv) :
    t.uir = none ∧ t.StepInv := by
  have ⟨hc, _, hk, hbu, _⟩ := hs
  have hb := hbu hu
  have ⟨_, _, _, hseq⟩ := hb
  cases h with
  | idle => exact ⟨hu, hs⟩
  | reset rest => exact ⟨by simp, stepInv_of_afterReset (afterReset_hardwareReset _)⟩
  | error rest e =>
    exact ⟨hu, stepInv_of_atBoundary hb hc fun hr => hk (Bool.and_eq_true_iff.1 hr).1⟩
  | load rest hl =>
    exact ⟨hu, stepInv_of_atBoundary hb (Nat.zero_le 64) fun _ => constantsLoaded_of_loads hl⟩
  | stream rest hne hst =>
    exact ⟨hst.uir, stepInv_of_atBoundary (hst.atBoundary hseq) (hst.cursor ▸ cursorAfterBytes_le hc)
      fun hr => hst.constantsLoaded (hk (hst.ready ▸ hr))⟩

/-! ### The block buffer (10_state R26 (f)) -/

/-- A command that generates no block began inside one. -/
theorem cursor_ne_zero_of_genRuns_eq_zero {c n : Nat} (hn : n ≠ 0) (h : genRuns c n = 0) : c ≠ 0 := by
  rintro rfl
  simp only [genRuns, ceilBlocks, if_true] at h
  omega

/-- The block before the counter's, after setting the counter one past `n`. -/
theorem blockAt_before_withCounter (v : Variant) (base : Words) (n : Nat) :
    blockAt v (withCounter v base (n + 1)) (counterValue v (withCounter v base (n + 1)) + counterRange v - 1) =
      blockAt v base n := by
  have hpos := counterRange_pos v
  rw [blockAt, withCounter_withCounter, counterValue_withCounter, blockAt]
  refine congrArg blockFunction (withCounter_congr v base _ _ ?_)
  rw [Nat.add_sub_assoc hpos, Nat.mod_add_mod,
    show n + 1 + (counterRange v - 1) = n + counterRange v by omega, Nat.add_mod_right]

/-- A successful data command leaves in `B` the last block it generated, or the one it found. -/
theorem Streamed.blockInv {bytes : List Byte} {s t : State} (h : Streamed bytes s t) (hne : bytes ≠ [])
    (hs : s.BlockInv) : t.BlockInv := by
  intro hr _
  rw [h.variant]
  by_cases hz : runsFor bytes s = 0
  · have hS : t.S = s.S := by rw [h.S, hz, Nat.add_zero, withCounter_self]
    have hc : s.cursor ≠ 0#7 := fun e =>
      cursor_ne_zero_of_genRuns_eq_zero (mt List.length_eq_zero_iff.1 hne) hz ((cursor_eq_0_iff _).1 e)
    obtain ⟨-, -, hB⟩ := h.kept hz
    rw [hB, hS, hs (h.ready ▸ hr) hc]
  · obtain ⟨n, hn⟩ := Nat.exists_eq_succ_of_ne_zero hz
    obtain ⟨-, -, hB⟩ := h.generated hz
    rw [hB, h.S, hn, Nat.succ_eq_add_one, ← Nat.add_assoc, blockAt_before_withCounter,
      Nat.add_sub_cancel]

/-- A step from a command boundary keeps the block buffer invariant. -/
theorem BoundaryStep.blockInv {s t : State} (h : BoundaryStep s t) (hs : s.BlockInv) : t.BlockInv := by
  cases h with
  | idle => exact hs
  | reset rest => exact blockInv_of_not_ready (by simp)
  | error rest e => exact fun hr => hs (Bool.and_eq_true_iff.1 hr).1
  | load rest hl => exact fun _ hc => absurd rfl hc
  | stream rest hne hst => exact hst.blockInv hne hs

/-- Settles O55, over the ways a step from a command boundary can end. -/
theorem blockBufferInvariant : Obligations.BlockBufferInvariant := by
  intro s t hs hu hB hstep
  have ⟨hc, _⟩ := hs
  obtain ⟨t', ht', hbs⟩ := step_boundaryStep s hu hc
  cases hstep.symm.trans ht'
  exact ⟨(hbs.stepInv hu hs).1, hbs.blockInv hB⟩

/-! ### A step inside a command -/

/-- The instructions of GEN before its last, CLRCUR: they complete and move neither the cursor nor the data. -/
def isBlockInstr : Instr → Bool
  | .ldmix => true
  | .qr a b c d => distinctIndices a b c d
  | .ffwd => true
  | .ser => true
  | .ctrinc => true
  | .clrcur => false
  | .xorb => false
  | .init _ _ => false
  | .encrypt _ => false
  | .decrypt _ => false

/-- They complete in every state, and keep what the sequencer looks at. -/
theorem exec_of_isBlockInstr {i : Instr} (h : isBlockInstr i = true) (s : State) :
    ∃ t, exec i s = .next t ∧ MicroEffect i s t ∧ i ≠ .clrcur ∧ i ≠ .xorb := by
  cases i with
  | ldmix => exact ⟨_, rfl, microEffect_ldmix s, nofun, nofun⟩
  | qr a b c d => exact ⟨_, exec_qr_eq_next.2 ⟨h, rfl⟩, microEffect_qr a b c d _ s, nofun, nofun⟩
  | ffwd => exact ⟨_, rfl, microEffect_ffwd s, nofun, nofun⟩
  | ser => exact ⟨_, rfl, microEffect_ser s, nofun, nofun⟩
  | ctrinc => exact ⟨_, rfl, microEffect_ctrinc s, nofun, nofun⟩
  | clrcur => cases h
  | xorb => cases h
  | init key nonce => cases h
  | encrypt bytes => cases h
  | decrypt bytes => cases h

/-- A micro-word that decodes to one of them. -/
def isBlockWord (w : MicroWord) : Bool :=
  match decodeMicro w with
  | .ok i => isBlockInstr i
  | .error _ => false

/-- A block word decodes to a block instruction, so it is not XORB's. -/
theorem decode_of_isBlockWord {w : MicroWord} (h : isBlockWord w = true) :
    w ≠ xorbWord ∧ ∃ i, decodeMicro w = .ok i ∧ isBlockInstr i = true := by
  constructor
  · rintro rfl
    exact absurd h (by decide)
  · rcases hd : decodeMicro w with _ | i
    · simp [isBlockWord, hd] at h
    · exact ⟨i, rfl, by simpa [isBlockWord, hd] using h⟩

/-- The eight QR words of a double-round are block words. -/
theorem doubleRoundWords_isBlockWord : ∀ w ∈ doubleRoundWords, isBlockWord w = true := by
  simp only [doubleRoundWords, List.forall_mem_cons, List.not_mem_nil, false_imp_iff, implies_true, and_true]
  decide +kernel

/-- GEN before its last word (30_encoding R58). -/
def blockProgram : List MicroWord :=
  0x10000#20 :: ((List.replicate 10 doubleRoundWords).flatten ++ [0x30000#20, 0x40000#20, 0x50000#20])

theorem genProgram_eq_append : genProgram = blockProgram ++ [0x60000#20] := by
  simp [genProgram, blockProgram]

theorem blockProgram_length : blockProgram.length = 84 := by decide

theorem genProgram_length : genProgram.length = 85 := by
  rw [genProgram_eq_append, List.length_append, blockProgram_length, List.length_singleton]

/-- GEN before its last word is made of block words. -/
theorem blockProgram_isBlockWord {w : MicroWord} (h : w ∈ blockProgram) : isBlockWord w = true := by
  simp only [blockProgram, List.mem_cons, List.mem_append, List.mem_flatten, List.mem_replicate] at h
  rcases h with rfl | ⟨_, ⟨-, rfl⟩, hq⟩ | rfl | rfl | rfl | hnil
  · decide
  · exact doubleRoundWords_isBlockWord w hq
  · decide
  · decide
  · decide
  · cases hnil

/-- Every word of GEN but the last is a block word. -/
theorem genProgram_isBlockWord {k : Nat} {w : MicroWord} (hk : k < 84) (h : genProgram[k]? = some w) :
    isBlockWord w = true := by
  rw [genProgram_eq_append, List.getElem?_append_left (by rwa [blockProgram_length])] at h
  exact blockProgram_isBlockWord (List.mem_of_getElem? h)

/-- The last word of GEN is CLRCUR's. -/
theorem genProgram_last : genProgram[84]? = some 0x60000#20 := by
  rw [genProgram_eq_append, List.getElem?_append_right blockProgram_length.le, blockProgram_length]
  rfl

/-! ### The invariant inside a command -/

/-- The step invariant inside a command. -/
theorem stepInv_of_midCommand {s : State} {w : MicroWord} (hu : s.uir = some w) (hm : MidCommand s w)
    (hc : s.cursor.toNat ≤ 64) (hq : s.seq.toNat ≤ 84) (hk : ConstantsLoaded s) : s.StepInv :=
  ⟨hc, hq, fun _ => hk, fun hn => by simp [hn] at hu, fun w' hw' => by
    cases hu.symm.trans hw'
    exact hm⟩

/-- The first micro-word of a byte step fits its place (44_stream R110). -/
theorem issueByteStep_stepInv {s : State} (hr : s.ready = true) (hd : s.data ≠ []) (hc : s.cursor.toNat ≤ 64)
    (hq : s.seq = 0#7) (hk : ConstantsLoaded s) : (issueByteStep s).StepInv := by
  by_cases hb : blockNeeded s = true
  · rw [issueByteStep, if_pos hb]
    exact stepInv_of_midCommand rfl ⟨hr, hd, .inr ⟨rfl, (blockNeeded_iff s).1 hb⟩⟩ hc (Nat.zero_le 84) hk
  · rw [issueByteStep, if_neg hb]
    have h64 : s.cursor.toNat ≠ 64 := fun h => hb ((blockNeeded_iff s).2 (.inr ((cursor_eq_64_iff _).2 h)))
    have h63 : s.cursor.toNat ≤ 63 := Nat.le_of_lt_succ (Nat.lt_of_le_of_ne hc h64)
    exact stepInv_of_midCommand rfl ⟨hr, hd, .inl ⟨rfl, hq, h63⟩⟩ hc (by simp [hq]) hk

/-- After XORB: the response, or the next byte step; either has the invariant. -/
theorem advanceByte_stepInv {s : State} (hr : s.ready = true) (hc : s.cursor.toNat ≤ 64) (hq : s.seq = 0#7)
    (hk : ConstantsLoaded s) : ∃ t, advanceByte s = .next t ∧ t.StepInv := by
  by_cases hd : s.data = []
  · exact ⟨_, if_pos hd, stepInv_of_atBoundary ⟨rfl, rfl, rfl, hq⟩ hc fun _ => hk⟩
  · exact ⟨_, if_neg hd, issueByteStep_stepInv hr hd hc hq hk⟩

/-- A step on XORB in its place keeps the invariant. -/
theorem step_xorb_stepInv {s : State} (hn : NoResetNext s) (hu : s.uir = some xorbWord) (hr : s.ready = true)
    (hd : s.data ≠ []) (hq : s.seq = 0#7) (hc : s.cursor.toNat ≤ 63) (hk : ConstantsLoaded s) :
    ∃ t, step s = .next t ∧ t.StepInv := by
  obtain ⟨x, rest, hx⟩ := List.exists_cons_of_ne_nil hd
  rw [step_xorb s _ hn hu (xorb_of_cons s x rest hx (by omega))]
  exact advanceByte_stepInv hr (by simp; omega) hq hk

/-- A micro-operation keeps the constants: at most the counter field is written. -/
theorem MicroEffect.constantsLoaded {i : Instr} {s t : State} (h : MicroEffect i s t) (hs : ConstantsLoaded s) :
    ConstantsLoaded t := by
  refine constantsLoaded_congr (fun k hk => ?_) hs
  rcases h.S with hS | hS
  · simp [hS]
  · simp [hS, incrementCounter_eq, withCounter_get_low _ _ _ k (by omega : k < 12)]

/-- A step on a word of GEN before the last keeps the invariant: the next word is issued. -/
theorem step_block_stepInv {s : State} {w : MicroWord} (hn : NoResetNext s) (hu : s.uir = some w)
    (hr : s.ready = true) (hd : s.data ≠ []) (hw : genProgram[s.seq.toNat]? = some w) (hq : s.seq.toNat < 84)
    (hc : s.cursor = 0#7 ∨ s.cursor = 64#7) (hk : ConstantsLoaded s) : ∃ t, step s = .next t ∧ t.StepInv := by
  obtain ⟨hx, i, hdec, hi⟩ := decode_of_isBlockWord (genProgram_isBlockWord hq hw)
  obtain ⟨t, ht, heff, hclr, hxorb⟩ := exec_of_isBlockInstr hi s
  have hqt : t.seq.toNat < 84 := by rw [heff.seq]; exact hq
  have hnext : (t.seq + 1#7).toNat = t.seq.toNat + 1 := by simp; omega
  have hlen : t.seq.toNat + 1 < genProgram.length := by rw [genProgram_length]; omega
  refine ⟨_, step_gen_word s w i t hn hu hx hdec ht hqt, ?_⟩
  refine stepInv_of_midCommand (List.getElem?_eq_getElem hlen)
    ⟨heff.ready ▸ hr, heff.data hxorb ▸ hd, .inr ⟨?_, heff.cursor hclr hxorb ▸ hc⟩⟩ ?_ ?_ (heff.constantsLoaded hk)
  · change genProgram[(t.seq + 1#7).toNat]? = _
    rw [hnext, List.getElem?_eq_getElem hlen]
  · change t.cursor.toNat ≤ 64
    rw [heff.cursor hclr hxorb]
    rcases hc with hc | hc <;> simp [hc]
  · change (t.seq + 1#7).toNat ≤ 84
    omega

/-- A step on the last word of GEN: the cursor is cleared and the XORB of the byte step issued (30_encoding R59). -/
theorem step_gen_last {s : State} (hn : NoResetNext s) (hu : s.uir = some 0x60000#20) (hq : s.seq.toNat = 84) :
    step s = .next { clrcur s with seq := 0#7, uir := some xorbWord } := by
  rw [step_of_uir s _ hn hu, runMicro, show decodeMicro 0x60000#20 = .ok .clrcur by decide]
  simp only [exec, execClrcur, andThen]
  rw [advance, if_neg (by decide), advanceGen, if_neg (by simp [hq]), if_pos (by simp [hq])]

/-- Inside a command a step completes and keeps the invariant. -/
theorem step_midCommand_stepInv {s : State} {w : MicroWord} (hn : NoResetNext s) (hu : s.uir = some w)
    (hs : s.StepInv) : ∃ t, step s = .next t ∧ t.StepInv := by
  obtain ⟨-, hq, hk, -, hm⟩ := hs
  obtain ⟨hr, hd, ⟨rfl, hseq, hc⟩ | ⟨hw, hc⟩⟩ := hm w hu
  · exact step_xorb_stepInv hn hu hr hd hseq hc (hk hr)
  · rcases Nat.lt_or_eq_of_le hq with hlt | heq
    · exact step_block_stepInv hn hu hr hd hw hlt hc (hk hr)
    · rw [heq, genProgram_last] at hw
      cases hw
      exact ⟨_, step_gen_last hn hu heq,
        stepInv_of_midCommand rfl ⟨hr, hd, .inl ⟨rfl, rfl, Nat.zero_le 63⟩⟩ (Nat.zero_le 64) (Nat.zero_le 84) (hk hr)⟩

/-- `rst` is taken in every state (70_reset_and_hazards R140). -/
theorem step_of_rst {s : State} {rest : List HostAction} (h : s.host = .rst :: rest) :
    step s = .next (hardwareReset (withHost rest s)) := by
  rw [step, h]

/-- Settles O53: `rst` resets; at a command boundary the ways a step can end, inside a command the place of the
micro-word issued. -/
theorem stepKeepsInvariant : Obligations.StepKeepsInvariant := by
  intro s hs
  rcases hu : s.uir with _ | w
  · have ⟨hc, _⟩ := hs
    obtain ⟨t, ht, hbs⟩ := step_boundaryStep s hu hc
    exact ⟨t, ht, (hbs.stepInv hu hs).2⟩
  · by_cases hn : NoResetNext s
    · exact step_midCommand_stepInv hn hu hs
    · obtain ⟨rest, hrest⟩ := List.head?_eq_some_iff.1 (not_not.1 hn)
      exact ⟨_, step_of_rst hrest, stepInv_of_afterReset (afterReset_hardwareReset _)⟩

end Sys2Proof.Machine
end

section
/-! SUPPORT. The family 20_memory: a repeated INIT (R36), and which data byte an output byte depends on (R38). -/

namespace Sys2Proof.Machine

/-! ### INIT repeated (20_memory R36) -/

/-- A legal key and nonce are loaded in every state. -/
theorem exec_init_of_loads {key nonce : List Byte} {v : Variant} {w : Words} (h : Loads key nonce v w) (s : State) :
    exec (.init key nonce) s = .next (respondOk [] (startStream v w s)) := by
  obtain ⟨hkey, hv, hw⟩ := h
  simp [exec, execInit, keyBytes, hkey, hv, hw]

/-- Any other key and nonce are answered by an error that clears `ready` (40_init R69). -/
theorem exec_init_of_not_loads {key nonce : List Byte} (h : ¬∃ v w, Loads key nonce v w) (s : State) :
    ∃ e, clearsReady e = true ∧ exec (.init key nonce) s = .next (raise e s) := by
  rcases execInit_cases key nonce s with ⟨e, rfl | rfl, hx⟩ | ⟨v, w, hl, -⟩
  · exact ⟨_, rfl, hx⟩
  · exact ⟨_, rfl, hx⟩
  · exact absurd ⟨v, w, hl⟩ h

/-- Settles O22: whether INIT loads, and what, depends on its operands alone; a second load writes the same fields
again, and a second error finds `ready` already clear. -/
theorem initIdempotent : Obligations.InitIdempotent := by
  intro key nonce s t u ht hu
  by_cases h : ∃ v w, Loads key nonce v w
  · obtain ⟨v, w, hl⟩ := h
    rw [exec_init_of_loads hl] at ht hu
    cases ht
    cases hu
    rfl
  · obtain ⟨e, he, hs⟩ := exec_init_of_not_loads h s
    cases hs.symm.trans ht
    obtain ⟨e', he', ht'⟩ := exec_init_of_not_loads h (raise e s)
    cases ht'.symm.trans hu
    simp [raise, respond, he, he']

/-! ### The output byte by byte (20_memory R38) -/

@[simp] theorem xorWith_length (ks : Nat → Byte) (bytes : List Byte) : (xorWith ks bytes).length = bytes.length :=
  List.length_mapIdx

/-- Byte `i` of a combination is made of the two bytes `i`. -/
@[simp] theorem xorWith_getElem? (ks : Nat → Byte) (bytes : List Byte) (i : Nat) :
    (xorWith ks bytes)[i]? = bytes[i]?.map (· ^^^ ks i) :=
  List.getElem?_mapIdx

/-- With `ready = 1` and data, a data command from a legal cursor completes, and its answer is the stream's. -/
theorem exec_dataCommand_streamed (enc : Bool) {bytes : List Byte} {s : State} (hr : s.ready = true)
    (hne : bytes ≠ []) (hc : s.cursor.toNat ≤ 64) :
    ∃ t, exec (dataCommand enc bytes) s = .next t ∧ Streamed bytes s t := by
  obtain ⟨u, hu, hst⟩ := streamBytes_streamed bytes s hc
  exact ⟨_, by rw [exec_dataCommand_stream enc (by simp [hr, hne]), hu, andThen], hst⟩

/-- Settles O26: each output is the data XORed byte by byte with the bytes the one starting state has coming. -/
theorem outputByteCausal : Obligations.OutputByteCausal := by
  intro enc d d' s t t' i _ hr hc hi hi' hbyte ht ht'
  obtain ⟨v, hv, hst⟩ := exec_dataCommand_streamed enc hr (List.length_pos_iff.1 (Nat.zero_lt_of_lt hi)) hc
  obtain ⟨v', hv', hst'⟩ := exec_dataCommand_streamed enc hr (List.length_pos_iff.1 (Nat.zero_lt_of_lt hi')) hc
  cases hv.symm.trans ht
  cases hv'.symm.trans ht'
  exact ⟨_, _, hst.rsp, hst'.rsp, xorWith_length _ d, xorWith_length _ d', by simp [hbyte]⟩

end Sys2Proof.Machine
end

section
/-! SUPPORT. The family 30_encoding, the codec: what each part of the decoder accepts, that decoder and encoder undo each
other (R47 to R49, R53, R55 to R57), and exactly which frames and micro-words stand for no instruction (R51, R60). -/

namespace Sys2Proof.Machine

/-! ### The fields of a micro-word (R55) -/

/-- Bits 19..16, as a number. -/
def microOpcode (w : MicroWord) : Nat := w.toNat / 2 ^ 16

@[simp] theorem microOpcode_microWord (u : BitVec 4) (a b c d : Fin 16) :
    microOpcode (microWord u a b c d) = u.toNat := by
  rw [microOpcode, microWord_toNat]; omega

@[simp] theorem microIndex_microWord_a (u : BitVec 4) (a b c d : Fin 16) : microIndex (microWord u a b c d) 12 = a := by
  apply Fin.ext; rw [microIndex_val, microWord_toNat]; omega

@[simp] theorem microIndex_microWord_b (u : BitVec 4) (a b c d : Fin 16) : microIndex (microWord u a b c d) 8 = b := by
  apply Fin.ext; rw [microIndex_val, microWord_toNat]; omega

@[simp] theorem microIndex_microWord_c (u : BitVec 4) (a b c d : Fin 16) : microIndex (microWord u a b c d) 4 = c := by
  apply Fin.ext; rw [microIndex_val, microWord_toNat]; omega

@[simp] theorem microIndex_microWord_d (u : BitVec 4) (a b c d : Fin 16) : microIndex (microWord u a b c d) 0 = d := by
  apply Fin.ext; rw [microIndex_val, microWord_toNat]; omega

/-- A micro-word is made of its five fields. -/
theorem microWord_fields (w : MicroWord) (u : BitVec 4) (hu : microOpcode w = u.toNat) :
    microWord u (microIndex w 12) (microIndex w 8) (microIndex w 4) (microIndex w 0) = w := by
  apply BitVec.eq_of_toNat_eq
  simp only [microWord_toNat, microIndex_val, ← hu, microOpcode]
  omega

/-! ### The micro-word decoder (R56, R57, R60) -/

/-- The micro-operation without operands that a micro-opcode names (R56). -/
def plainInstr : Nat → Option Instr
  | 1 => some .ldmix
  | 3 => some .ffwd
  | 4 => some .ser
  | 5 => some .ctrinc
  | 6 => some .clrcur
  | 7 => some .xorb
  | _ => none

/-- The micro-opcodes that name none: QR's and the reserved ones. -/
theorem plainInstr_eq_none_iff (u : Nat) : plainInstr u = none ↔ u = 0 ∨ u = 2 ∨ 8 ≤ u := by
  unfold plainInstr
  split
  case h_7 h1 h3 h4 h5 h6 h7 =>
    have hne : u ≠ 1 ∧ u ≠ 3 ∧ u ≠ 4 ∧ u ≠ 5 ∧ u ≠ 6 ∧ u ≠ 7 := ⟨h1, h3, h4, h5, h6, h7⟩
    simp only [true_iff]
    omega
  all_goals simp

/-- The decoder on micro-opcode 2. -/
theorem decodeMicro_qr {w : MicroWord} (h : microOpcode w = 2) : decodeMicro w = decodeQr w := by
  simp only [decodeMicro, uop_toNat, show w.toNat / 2 ^ 16 = 2 from h]

/-- The decoder on the micro-opcode of a micro-operation without operands. -/
theorem decodeMicro_plain {w : MicroWord} {i : Instr} (h : plainInstr (microOpcode w) = some i) :
    decodeMicro w = plainMicro w i := by
  rw [microOpcode, ← uop_toNat] at h
  unfold plainInstr at h
  split at h <;> cases h <;> simp only [decodeMicro, *]

/-- The decoder on a reserved micro-opcode. -/
theorem decodeMicro_reserved {w : MicroWord} (h : microOpcode w = 0 ∨ 8 ≤ microOpcode w) :
    decodeMicro w = .error .reservedUop := by
  rw [microOpcode, ← uop_toNat] at h
  unfold decodeMicro
  split
  case h_8 => rfl
  all_goals omega

/-- A micro-operation without operands is read where bits 15..0 are zero. -/
theorem plainMicro_eq_ok {w : MicroWord} {i j : Instr} : plainMicro w i = .ok j ↔ w.toNat % 2 ^ 16 = 0 ∧ i = j := by
  rw [plainMicro, ← low_eq_zero_iff]
  split <;> simp_all

/-- QR is read where its four index fields are pairwise distinct. -/
theorem decodeQr_eq_ok {w : MicroWord} {i : Instr} : decodeQr w = .ok i ↔
    distinctIndices (microIndex w 12) (microIndex w 8) (microIndex w 4) (microIndex w 0) = true ∧
      .qr (microIndex w 12) (microIndex w 8) (microIndex w 4) (microIndex w 0) = i := by
  simp only [decodeQr]
  split <;> simp_all

/-- The decoder's three kinds of micro-word. -/
theorem decodeMicro_cases (w : MicroWord) :
    ((microOpcode w = 0 ∨ 8 ≤ microOpcode w) ∧ decodeMicro w = .error .reservedUop) ∨
    (microOpcode w = 2 ∧ decodeMicro w = decodeQr w) ∨
    (¬(microOpcode w = 0 ∨ microOpcode w = 2 ∨ 8 ≤ microOpcode w) ∧
      ∃ i, plainInstr (microOpcode w) = some i ∧ decodeMicro w = plainMicro w i) := by
  rcases hp : plainInstr (microOpcode w) with _ | i
  · rcases (plainInstr_eq_none_iff _).1 hp with h0 | h2 | h8
    · exact .inl ⟨.inl h0, decodeMicro_reserved (.inl h0)⟩
    · exact .inr (.inl ⟨h2, decodeMicro_qr h2⟩)
    · exact .inl ⟨.inr h8, decodeMicro_reserved (.inr h8)⟩
  · refine .inr (.inr ⟨?_, i, rfl, decodeMicro_plain hp⟩)
    rw [← plainInstr_eq_none_iff, hp]
    nofun

/-- The encoding of a micro-operation without operands: its micro-opcode above sixteen zero bits. -/
theorem encode_of_plainInstr {u : Nat} {i : Instr} (h : plainInstr u = some i) :
    encode i = .micro (BitVec.ofNat 20 (u * 2 ^ 16)) ∧ i.wellFormed = true := by
  unfold plainInstr at h
  split at h <;> cases h <;> exact ⟨rfl, rfl⟩

/-- The micro-word decoder accepts nothing but encodings of well-formed instructions. -/
theorem encode_of_decodeMicro {w : MicroWord} {i : Instr} (h : decodeMicro w = .ok i) :
    encode i = .micro w ∧ i.wellFormed = true := by
  rcases decodeMicro_cases w with ⟨-, hw⟩ | ⟨h2, hw⟩ | ⟨-, j, hj, hw⟩ <;> rw [hw] at h
  · cases h
  · obtain ⟨hd, rfl⟩ := decodeQr_eq_ok.1 h
    exact ⟨congrArg Encoding.micro (microWord_fields w 2#4 h2), hd⟩
  · obtain ⟨hlow, rfl⟩ := plainMicro_eq_ok.1 h
    have hmul : microOpcode w * 2 ^ 16 = w.toNat := by rw [microOpcode]; omega
    have henc := encode_of_plainInstr hj
    rwa [hmul, BitVec.ofNat_toNat, BitVec.setWidth_eq] at henc

/-! ### The frame decoder (R46 to R49, R51) -/

/-- An INIT frame after its opcode is two length bytes and as many bytes as they say. -/
theorem decodeInit_eq_ok {r : Frame} {i : Instr} : decodeInit r = .ok i ↔
    ∃ k n p, r = k :: n :: p ∧ p.length = k.toNat + n.toNat ∧ .init (p.take k.toNat) (p.drop k.toNat) = i := by
  match r with
  | [] => simp [decodeInit]
  | [_] => simp [decodeInit]
  | k :: n :: p =>
    rw [decodeInit]
    split <;> simp_all

/-! The decoder on each legal opcode. -/

theorem decodeFrame_init (r : Frame) : decodeFrame (0x01#8 :: r) = decodeInit r := rfl
theorem decodeFrame_encrypt (r : Frame) : decodeFrame (0x02#8 :: r) = .ok (.encrypt r) := rfl
theorem decodeFrame_decrypt (r : Frame) : decodeFrame (0x03#8 :: r) = .ok (.decrypt r) := rfl

/-- The decoder on an illegal opcode. -/
theorem decodeFrame_illegalOpcode {op : Byte} (h : op.toNat = 0 ∨ 4 ≤ op.toNat) (r : Frame) :
    decodeFrame (op :: r) = .error .illegalOpcode := by
  have h1 : op ≠ opInit := by rintro rfl; simp [opInit] at h
  have h2 : op ≠ opEncrypt := by rintro rfl; simp [opEncrypt] at h
  have h3 : op ≠ opDecrypt := by rintro rfl; simp [opDecrypt] at h
  rw [decodeFrame, if_neg h1, if_neg h2, if_neg h3]

/-- A frame's opcode is one of the three or illegal (R49). -/
theorem opcode_cases (op : Byte) : op = 0x01#8 ∨ op = 0x02#8 ∨ op = 0x03#8 ∨ op.toNat = 0 ∨ 4 ≤ op.toNat := by
  simp only [← BitVec.toNat_inj, BitVec.toNat_ofNat]
  omega

/-- The encoding of an INIT, from its two length bytes and the bytes after them. -/
theorem encode_init_split {k n : Byte} {p : List Byte} (h : p.length = k.toNat + n.toNat) :
    encode (.init (p.take k.toNat) (p.drop k.toNat)) = .frame (0x01#8 :: k :: n :: p) ∧
      (Instr.init (p.take k.toNat) (p.drop k.toNat)).wellFormed = true := by
  have hk : (p.take k.toNat).length = k.toNat := by rw [List.length_take]; omega
  have hn : (p.drop k.toNat).length = n.toNat := by rw [List.length_drop]; omega
  constructor
  · simp [encode, opInit, hk, hn]
  · simp only [Instr.wellFormed, hk, hn]
    simp [k.isLt, n.isLt]

/-- The frame decoder accepts nothing but encodings of well-formed instructions. -/
theorem encode_of_decodeFrame {f : Frame} {i : Instr} (h : decodeFrame f = .ok i) :
    encode i = .frame f ∧ i.wellFormed = true := by
  rcases f with _ | ⟨op, r⟩
  · cases h
  · rcases opcode_cases op with rfl | rfl | rfl | hop
    · obtain ⟨k, n, p, rfl, hlen, rfl⟩ := decodeInit_eq_ok.1 (decodeFrame_init r ▸ h)
      exact encode_init_split hlen
    · cases h
      exact ⟨rfl, rfl⟩
    · cases h
      exact ⟨rfl, rfl⟩
    · rw [decodeFrame_illegalOpcode hop] at h
      cases h

/-! ### Decoder and encoder -/

/-- The encoding of an INIT whose lengths fit the length bytes decodes to it. -/
theorem decode_encode_init {key nonce : List Byte} (hk : key.length < 256) (hn : nonce.length < 256) :
    decode (encode (.init key nonce)) = .ok (.init key nonce) := by
  refine decodeInit_eq_ok.2 ⟨_, _, _, rfl, ?_, ?_⟩
  · simp [Nat.mod_eq_of_lt hk, Nat.mod_eq_of_lt hn]
  · simp [Nat.mod_eq_of_lt hk]

/-- The encoding of a QR with distinct indices decodes to it. -/
theorem decode_encode_qr {a b c d : Fin 16} (h : distinctIndices a b c d = true) :
    decode (encode (.qr a b c d)) = .ok (.qr a b c d) := by
  rw [encode, decode, decodeMicro_qr (microOpcode_microWord 2#4 a b c d), decodeQr_eq_ok]
  simpa using h

/-- Settles O38, by the constructors: INIT's lengths and QR's indices are all that well-formedness asks. -/
theorem decodeEncode : Obligations.DecodeEncode := by
  intro i hi
  cases i with
  | init key nonce =>
    obtain ⟨hk, hn⟩ : key.length < 256 ∧ nonce.length < 256 := by simpa [Instr.wellFormed] using hi
    exact decode_encode_init hk hn
  | qr a b c d => exact decode_encode_qr hi
  | encrypt bytes => rfl
  | decrypt bytes => rfl
  | ldmix => rfl
  | ffwd => rfl
  | ser => rfl
  | ctrinc => rfl
  | clrcur => rfl
  | xorb => rfl

/-- Settles O39, for each of the two decoders. -/
theorem encodeDecode : Obligations.EncodeDecode := by
  intro e i h
  cases e with
  | frame f => exact encode_of_decodeFrame h
  | micro w => exact encode_of_decodeMicro h

/-! ### What stands for no instruction (R51, R60) -/

/-- An INIT frame is illegal where a length byte is missing or its length does not fit (R51 (c), (d)). -/
theorem decodeFrame_init_not_ok (r : Frame) : (∀ i, decodeFrame (0x01#8 :: r) ≠ .ok i) ↔
    (0x01#8 :: r).length < 3 ∨ ∃ k n p, r = k :: n :: p ∧ (0x01#8 :: r).length ≠ 3 + k.toNat + n.toNat := by
  match r with
  | [] => simp [decodeFrame_init, decodeInit_eq_ok]
  | [_] => simp [decodeFrame_init, decodeInit_eq_ok]
  | k :: n :: p =>
    have hlen : p.length + 1 + 1 + 1 = 3 + k.toNat + n.toNat ↔ p.length = k.toNat + n.toNat := by omega
    simp [decodeFrame_init, decodeInit_eq_ok, hlen]

/-- Settles O40, by the opcode. -/
theorem illegalFramesExactly : Obligations.IllegalFramesExactly := by
  intro f
  rcases f with _ | ⟨op, r⟩
  · simp [decodeFrame]
  · rcases opcode_cases op with rfl | rfl | rfl | hop
    · simp [decodeFrame_init_not_ok]
    · simp [decodeFrame_encrypt]
    · simp [decodeFrame_decrypt]
    · simp [decodeFrame_illegalOpcode hop, hop]

/-- The index fields of a micro-word, as numbers. -/
theorem distinctIndices_fields_iff (w : MicroWord) :
    distinctIndices (microIndex w 12) (microIndex w 8) (microIndex w 4) (microIndex w 0) = true ↔
      [w.toNat / 2 ^ 12 % 16, w.toNat / 2 ^ 8 % 16, w.toNat / 2 ^ 4 % 16, w.toNat % 16].Nodup := by
  rw [distinctIndices_iff, ← List.nodup_map_iff Fin.val_injective]
  simp only [List.map_cons, List.map_nil, microIndex_val, Nat.pow_zero, Nat.div_one]

/-- Which micro-words are reserved. -/
theorem decodeMicro_not_ok (w : MicroWord) : (∀ i, decodeMicro w ≠ .ok i) ↔
    microOpcode w = 0 ∨ 8 ≤ microOpcode w ∨ (microOpcode w ≠ 2 ∧ w.toNat % 2 ^ 16 ≠ 0) ∨
    (microOpcode w = 2 ∧
      ¬[w.toNat / 2 ^ 12 % 16, w.toNat / 2 ^ 8 % 16, w.toNat / 2 ^ 4 % 16, w.toNat % 16].Nodup) := by
  rw [← distinctIndices_fields_iff]
  rcases decodeMicro_cases w with ⟨h, hw⟩ | ⟨h, hw⟩ | ⟨h, j, -, hw⟩
  · rcases h with h | h <;> simp [hw, h]
  · simp [hw, decodeQr_eq_ok, h]
  · rw [not_or, not_or] at h
    simp [hw, plainMicro_eq_ok, h]

/-- Every word of GEN decodes. -/
theorem genProgram_decodes {w : MicroWord} (h : w ∈ genProgram) : ∃ i, decodeMicro w = .ok i := by
  rw [genProgram_eq_append, List.mem_append, List.mem_singleton] at h
  rcases h with hblock | rfl
  · obtain ⟨-, i, hi, -⟩ := decode_of_isBlockWord (blockProgram_isBlockWord hblock)
    exact ⟨i, hi⟩
  · exact ⟨.clrcur, rfl⟩

/-- A step on a reserved micro-word. -/
theorem step_of_reserved {s : State} {w : MicroWord} (hn : NoResetNext s) (hu : s.uir = some w)
    (h : ∀ i, decodeMicro w ≠ .ok i) : step s = .fault .reservedMicroWord := by
  rw [step_of_uir s w hn hu, runMicro]
  rcases hd : decodeMicro w with e | i
  · rfl
  · exact absurd hd (h i)

/-- Settles O41: the reserved words by micro-opcode; every word of GEN decodes. -/
theorem reservedMicroWordsExactly : Obligations.ReservedMicroWordsExactly := by
  refine ⟨decodeMicro_not_ok, fun w h => ⟨fun hmem => ?_, fun s hn hu => step_of_reserved hn hu h⟩⟩
  obtain ⟨i, hi⟩ := genProgram_decodes hmem
  exact h i hi

/-- Settles O5: QR and the decoder make the same test. -/
theorem repeatedIndexStops : Obligations.RepeatedIndexStops := by
  intro a b c d s h
  rw [← distinctIndices_iff] at h
  constructor
  · rw [exec, execQr, if_neg h]
  · rw [decodeMicro_qr (microOpcode_microWord 2#4 a b c d), decodeQr]
    simp [h]

end Sys2Proof.Machine
end

section
/-! SUPPORT. The family 30_encoding, frames and the sequencer: the GEN table (R58, R62), the step that runs a frame (R46,
R50) or a micro-word (R59), and the micro-operation view against the atomic one (R55). -/

namespace Sys2Proof.Machine

/-! ### The GEN table (R58, R62) -/

/-- Entry `k` of the `r`-th of `n` copies of a list. -/
theorem getElem?_flatten_replicate {α : Type} (l : List α) (n r k : Nat) (hr : r < n) (hk : k < l.length) :
    (List.replicate n l).flatten[l.length * r + k]? = l[k]? := by
  induction n generalizing r with
  | zero => omega
  | succ n ih =>
    rw [List.replicate_succ, List.flatten_cons]
    cases r with
    | zero => rw [Nat.mul_zero, Nat.zero_add, List.getElem?_append_left hk]
    | succ r =>
      rw [Nat.mul_succ, List.getElem?_append_right (by omega), ← ih r (by omega)]
      congr 1
      omega

/-- Word `1 + 8 * r + k` of GEN is the `k`-th of the eight QR words (R58). -/
theorem genProgram_qrWord (r k : Nat) (hr : r < 10) (hk : k < 8) :
    genProgram[1 + 8 * r + k]? = doubleRoundWords[k]? := by
  have hword := getElem?_flatten_replicate doubleRoundWords 10 r k hr hk
  have hlen : (List.replicate 10 doubleRoundWords).flatten.length = 80 := by simp [doubleRoundWords]
  change (List.replicate 10 doubleRoundWords).flatten[8 * r + k]? = _ at hword
  rw [genProgram, show 1 + 8 * r + k = 8 * r + k + 1 by omega, List.getElem?_cons_succ,
    List.getElem?_append_left (by omega), hword]

/-- The instructions of GEN before its last, CLRCUR. -/
def blockInstrs : List Instr := pseudoBlock ++ [.ctrinc]

theorem pseudoGen_eq_append : pseudoGen = blockInstrs ++ [.clrcur] := by
  simp [pseudoGen, blockInstrs]

/-- The eight QR words decode to DROUND's eight QRs. -/
theorem doubleRoundWords_decode : doubleRoundWords.map decodeMicro = pseudoDround.map .ok := rfl

/-- GEN before its last word decodes to those instructions. -/
theorem blockProgram_decode : blockProgram.map decodeMicro = blockInstrs.map .ok := by
  simp only [blockProgram, blockInstrs, pseudoBlock, pseudoPermute, List.map_cons, List.map_append, List.map_flatten,
    List.map_replicate, doubleRoundWords_decode]
  rfl

/-- Settles O43: the double-round's words and their decoding, ten times over. -/
theorem genProgramTable : Obligations.GenProgramTable := by
  refine ⟨genProgram_length, rfl, genProgram_qrWord, rfl, rfl, rfl, genProgram_last, ?_⟩
  rw [genProgram_eq_append, pseudoGen_eq_append, List.map_append, List.map_append, blockProgram_decode]
  rfl

/-! ### A step that runs a frame or a micro-word (R46, R59) -/

/-- At a command boundary a step decodes and runs the frame presented. -/
theorem step_of_frame {s : State} {f : Frame} {rest : List HostAction} (hu : s.uir = none)
    (hh : s.host = .frame f :: rest) : step s = runFrame f (withHost rest s) := by
  rw [step_of_uir_none hu, takeHost, hh]

/-- Settles O44: the step decodes the frame and runs what it decodes to. -/
theorem stepRunsFrame : Obligations.StepRunsFrame := by
  intro s f rest i hu hh hd
  rw [step_of_frame hu hh, runFrame, hd]

/-- Inside a command a step runs the instruction of the micro-word issued, then the sequencer. -/
theorem step_of_microWord {s t : State} {w : MicroWord} {i : Instr} (hn : NoResetNext s) (hu : s.uir = some w)
    (hd : decodeMicro w = .ok i) (ht : exec i s = .next t) : step s = advance w t := by
  rw [step_of_uir s w hn hu, runMicro, hd]
  simp only [ht, andThen]

/-- After XORB the sequencer looks at the data left. -/
theorem advance_of_eq {w : MicroWord} (h : w = xorbWord) (t : State) : advance w t = advanceByte t := if_pos h

/-- After any other micro-word it goes on in GEN. -/
theorem advance_of_ne {w : MicroWord} (h : w ≠ xorbWord) (t : State) : advance w t = advanceGen t := if_neg h

/-- Settles O46, by what the sequencer does after XORB and after a word of GEN. -/
theorem stepRunsMicroWord : Obligations.StepRunsMicroWord := by
  intro s t w i hn hu hd ht
  rw [step_of_microWord hn hu hd ht]
  refine ⟨fun hw hdata => ?_, fun hw hdata => ?_, fun hw hq => ?_, fun hw hq => ?_⟩
  · rw [advance_of_eq hw, advanceByte, if_pos hdata]
    rfl
  · rw [advance_of_eq hw, advanceByte, if_neg hdata, issueByteStep]
    simp only [blockNeeded_iff, cursor_eq_0_iff, cursor_eq_64_iff]
    rfl
  · rw [advance_of_ne hw, advanceGen, if_pos hq]
  · rw [advance_of_ne hw, advanceGen, if_neg (by omega), if_pos hq]
    rfl

/-! ### GEN as a list of instructions -/

/-- Running two lists of instructions one after the other. -/
theorem execAll_append (is js : List Instr) (s : State) :
    execAll (is ++ js) s = andThen (execAll is s) (execAll js) := by
  induction is generalizing s with
  | nil => rfl
  | cons i is ih =>
    rw [List.cons_append, execAll, execAll]
    cases exec i s with
    | next t => exact ih t
    | fault e => rfl
    | refused e => rfl

/-- A list of QRs on groups of distinct indices. -/
theorem execAll_qr (gs : List Group) (h : ∀ g ∈ gs, distinctIndices g.1 g.2.1 g.2.2.1 g.2.2.2 = true) (s : State) :
    execAll (gs.map qrInstr) s = .next { s with M := qrGroups gs s.M } := by
  induction gs generalizing s with
  | nil => rfl
  | cons g gs ih =>
    have hg := exec_qr_eq_next (s := s).2 ⟨h g List.mem_cons_self, rfl⟩
    rw [List.map_cons, execAll, qrInstr, hg, andThen, ih fun g' hg' => h g' (List.mem_cons_of_mem g hg')]
    rfl

/-- The groups of a round are of distinct indices (42_block_function R85). -/
theorem columnGroups_distinct : ∀ g ∈ columnGroups, distinctIndices g.1 g.2.1 g.2.2.1 g.2.2.2 = true := by
  simp [columnGroups, distinctIndices]

theorem diagonalGroups_distinct : ∀ g ∈ diagonalGroups, distinctIndices g.1 g.2.1 g.2.2.1 g.2.2.2 = true := by
  simp [diagonalGroups, distinctIndices]

/-- DROUND. -/
theorem execAll_pseudoDround (s : State) : execAll pseudoDround s = .next { s with M := doubleRound s.M } := by
  rw [pseudoDround, pseudoColround, pseudoDiaground, execAll_append,
    execAll_qr columnGroups columnGroups_distinct, andThen, execAll_qr diagonalGroups diagonalGroups_distinct]
  rfl

/-- DROUND, any number of times. -/
theorem execAll_drounds (n : Nat) (s : State) :
    execAll (List.replicate n pseudoDround).flatten s = .next { s with M := Nat.iterate doubleRound n s.M } := by
  induction n generalizing s with
  | zero => rfl
  | succ n ih =>
    rw [List.replicate_succ, List.flatten_cons, execAll_append, execAll_pseudoDround, andThen, ih]
    rfl

/-- PERMUTE. -/
theorem execAll_pseudoPermute (s : State) : execAll pseudoPermute s = .next (permuteMix s) := by
  rw [pseudoPermute, execAll_drounds, ← permute_eq_iterate, permuteMix]

/-- GEN before CLRCUR. -/
theorem execAll_blockInstrs (s : State) :
    execAll blockInstrs s = .next (ctrinc (ser (ffwd (permuteMix (ldmix s))))) := by
  rw [blockInstrs, pseudoBlock, List.cons_append, execAll, exec, execLdmix, andThen, execAll_append, execAll_append,
    execAll_pseudoPermute]
  rfl

/-! ### The GEN micro-program, word by word (R55, R59) -/

/-- `s` with the sequencer at `k`: word `k` of GEN issued next. -/
def atWord (k : Nat) (s : State) : State := { s with seq := BitVec.ofNat 7 k, uir := genProgram[k]? }

/-- No instruction of GEN before CLRCUR looks at the sequencer. -/
theorem exec_atWord {i : Instr} (h : isBlockInstr i = true) {k : Nat} {s t : State} (ht : exec i s = .next t) :
    exec i (atWord k s) = .next (atWord k t) := by
  cases i with
  | ldmix => cases ht; rfl
  | qr a b c d => rw [(exec_qr_eq_next.1 ht).2]; exact exec_qr_eq_next.2 ⟨h, rfl⟩
  | ffwd => cases ht; rfl
  | ser => cases ht; rfl
  | ctrinc => cases ht; rfl
  | clrcur => cases h
  | xorb => cases h
  | init key nonce => cases h
  | encrypt bytes => cases h
  | decrypt bytes => cases h

/-- Word `k` of GEN before the last decodes to instruction `k` of GEN. -/
theorem genProgram_of_blockInstrs {k : Nat} {i : Instr} (h : blockInstrs[k]? = some i) :
    k < 84 ∧ isBlockInstr i = true ∧ ∃ w, genProgram[k]? = some w ∧ w ≠ xorbWord ∧ decodeMicro w = .ok i := by
  have hdec : (blockProgram.map decodeMicro)[k]? = (blockInstrs.map .ok)[k]? := by rw [blockProgram_decode]
  rw [List.getElem?_map, List.getElem?_map, h] at hdec
  obtain ⟨w, hw, hwi⟩ := Option.map_eq_some_iff.1 hdec
  obtain ⟨hne, j, hj, hblock⟩ := decode_of_isBlockWord (blockProgram_isBlockWord (List.mem_of_getElem? hw))
  obtain ⟨hk, -⟩ := List.getElem?_eq_some_iff.1 hw
  cases hj.symm.trans hwi
  refine ⟨blockProgram_length ▸ hk, hblock, w, ?_, hne, hwi⟩
  rw [genProgram_eq_append, List.getElem?_append_left hk, hw]

/-- A step on word `k` of GEN runs instruction `k` and issues word `k + 1`. -/
theorem step_atWord {k : Nat} {i : Instr} {s t : State} (h : blockInstrs[k]? = some i) (hn : NoResetNext s)
    (ht : exec i s = .next t) : step (atWord k s) = .next (atWord (k + 1) t) := by
  obtain ⟨hk, hblock, w, hw, hne, hdec⟩ := genProgram_of_blockInstrs h
  have hseq : (atWord k t).seq.toNat = k := Nat.mod_eq_of_lt (by omega)
  rw [step_gen_word (atWord k s) w i (atWord k t) hn hw hne hdec (exec_atWord hblock ht) (by omega), hseq]
  simp only [atWord, BitVec.ofNat_add]

/-- The rest of GEN from word `k`, up to CLRCUR. -/
theorem run_blockInstrs (is : List Instr) (k : Nat) (s t : State) (h : blockInstrs.drop k = is) (hn : NoResetNext s)
    (ht : execAll is s = .next t) : Host.Core.run core is.length (atWord k s) = .next (atWord (k + is.length) t) := by
  induction is generalizing k s with
  | nil =>
    cases ht
    rfl
  | cons i is ih =>
    have hi : blockInstrs[k]? = some i := by rw [← List.head?_drop, h, List.head?_cons]
    have hrest : blockInstrs.drop (k + 1) = is := by rw [← List.tail_drop, h, List.tail_cons]
    obtain ⟨-, hblock, -⟩ := genProgram_of_blockInstrs hi
    obtain ⟨u, hu, heff, -⟩ := exec_of_isBlockInstr hblock s
    rw [execAll, hu, andThen] at ht
    have hnu : NoResetNext u := by rw [NoResetNext, heff.host]; exact hn
    rw [List.length_cons, Nat.add_comm is.length 1, run_add 1 _ _ _ (run_one _ _ (step_atWord hi hn hu)),
      ih (k + 1) u hrest hnu ht, Nat.add_assoc]

theorem blockInstrs_length : blockInstrs.length = 84 := by
  have h := congrArg List.length blockProgram_decode
  rwa [List.length_map, List.length_map, blockProgram_length, eq_comm] at h

/-- The 85 steps of GEN have the effect of the atomic GEN, and leave the XORB of the byte step issued. -/
theorem run_gen {s : State} (hn : NoResetNext s) :
    Host.Core.run core 85 (atWord 0 s) = .next { gen s with uir := some xorbWord } := by
  have hrun := run_blockInstrs blockInstrs 0 s _ List.drop_zero hn (execAll_blockInstrs s)
  rw [blockInstrs_length] at hrun
  rw [run_add 84 1 _ _ hrun, run_one _ _ (step_gen_last (by simpa [NoResetNext, atWord] using hn) genProgram_last rfl)]
  simp only [gen, atWord, clrcur]

/-- Settles O50: with `seq` 0 and GEN[0] issued the sequencer stands at the first word. -/
theorem genMicroProgramIsGen : Obligations.GenMicroProgramIsGen := by
  intro s hn hq hu
  have hs : atWord 0 s = s := by
    rw [atWord, show BitVec.ofNat 7 0 = s.seq from hq.symm, show genProgram[0]? = s.uir from hu.symm]
  have hrun := run_gen hn
  rwa [hs] at hrun

/-! ### The byte steps of a command, word by word (R55, R59) -/

/-- XORB does not look at the micro-word issued. -/
theorem xorb_withUir {s t : State} (u : Option MicroWord) (h : xorb s = .next t) :
    xorb { s with uir := u } = .next { t with uir := u } := by
  obtain ⟨hc, x, rest, -, hd, -⟩ := xorb_eq_next h
  rw [xorb_of_cons s x rest hd hc] at h
  cases h
  exact xorb_of_cons { s with uir := u } x rest hd hc

/-- Nor does the sequencer after it. -/
theorem advanceByte_withUir (t : State) (u : Option MicroWord) : advanceByte { t with uir := u } = advanceByte t := rfl

/-- A step on the XORB of a byte step. -/
theorem run_xorb {s t u : State} (hn : NoResetNext s) (ht : xorb s = .next t) (hu : advanceByte t = .next u) :
    Host.Core.run core 1 { s with uir := some xorbWord } = .next u := by
  refine run_one _ _ ?_
  rw [step_xorb { s with uir := some xorbWord } _ hn rfl (xorb_withUir _ ht), advanceByte_withUir, hu]

/-- A byte step takes 85 steps for GEN where a block is needed, and one for XORB. -/
theorem run_byteStep {s t u : State} (hn : NoResetNext s) (ht : byteStep s = .next t) (hu : advanceByte t = .next u) :
    Host.Core.run core ((if blockNeeded s then 85 else 0) + 1) (issueByteStep s) = .next u := by
  unfold issueByteStep
  by_cases hb : blockNeeded s = true
  · rw [byteStep, if_pos hb] at ht
    rw [if_pos hb, if_pos hb]
    exact (run_add 85 1 _ _ (run_gen hn)).trans (run_xorb (by simpa [NoResetNext] using hn) ht hu)
  · rw [byteStep, if_neg hb] at ht
    rw [if_neg hb, if_neg hb]
    exact run_xorb hn ht hu

/-- From a legal cursor a block is needed where the cursor is a multiple of the block. -/
theorem blockNeeded_iff_mod {s : State} (hc : s.cursor.toNat ≤ 64) :
    blockNeeded s = true ↔ s.cursor.toNat % 64 = 0 := by
  rw [blockNeeded_iff, cursor_eq_0_iff, cursor_eq_64_iff]
  omega

/-- No data, no GEN. -/
theorem genRuns_zero (c : Nat) : genRuns c 0 = 0 := by
  simp [genRuns, ceilBlocks]

/-- The GEN runs of one byte more (44_stream R112). -/
theorem genRuns_succ {c : Nat} (hc : c ≤ 64) (n : Nat) :
    genRuns c (n + 1) = (if c % 64 = 0 then 1 else 0) + genRuns (c % 64 + 1) n := by
  simp only [genRuns, ceilBlocks]
  repeat' split
  all_goals omega

/-- The steps of one byte more: those of its byte step, and those of the rest. -/
theorem microSteps_succ {s : State} (hc : s.cursor.toNat ≤ 64) (n : Nat) :
    85 * genRuns s.cursor.toNat (n + 1) + (n + 1) =
      (if blockNeeded s then 85 else 0) + 1 + (85 * genRuns (s.cursor.toNat % 64 + 1) n + n) := by
  rw [genRuns_succ hc]
  simp only [blockNeeded_iff_mod hc]
  split <;> omega

/-- The byte steps of a command, run word by word, end in the response. -/
theorem run_streamBytes (bytes : List Byte) (x : Byte) (s t : State) (hd : s.data = x :: bytes)
    (hc : s.cursor.toNat ≤ 64) (hn : NoResetNext s) (ht : streamBytes (bytes.length + 1) s = .next t) :
    Host.Core.run core (85 * genRuns s.cursor.toNat (bytes.length + 1) + (bytes.length + 1)) (issueByteStep s) =
      .next (finishCommand t) := by
  induction bytes generalizing x s with
  | nil =>
    obtain ⟨u, hu, hdata, -⟩ := byteStep_spec s x [] hd hc
    rw [List.length_nil, streamBytes, hu, andThen, streamBytes] at ht
    cases ht
    have hrun := run_byteStep hn hu (if_pos hdata)
    rwa [List.length_nil, microSteps_succ hc, genRuns_zero]
  | cons y bytes ih =>
    obtain ⟨u, hu, hdata, -, hcur, -, -, -, hhost, -⟩ := byteStep_spec s x (y :: bytes) hd hc
    rw [streamBytes, hu, andThen] at ht
    have hrun := run_byteStep hn hu (if_neg (by simp [hdata]))
    have hnu : NoResetNext u := by rw [NoResetNext, hhost]; exact hn
    rw [microSteps_succ hc, run_add _ _ _ _ hrun, ← hcur]
    exact ih y u hdata (by omega) hnu ht

/-- Settles O51, by the byte steps of the command: the atomic command is those, and the response. -/
theorem microViewEqualsAtomicCommand : Obligations.MicroViewEqualsAtomicCommand := by
  intro enc bytes s _ hn hr hc hne
  obtain ⟨u, hu, -⟩ := streamBytes_streamed bytes s hc
  obtain ⟨x, rest, rfl⟩ := List.exists_cons_of_ne_nil hne
  refine ⟨finishCommand u, ?_, run_streamBytes rest x (acceptData (x :: rest) s) u rfl hc hn hu⟩
  rw [exec_dataCommand_stream enc (by simp [hr]), hu, andThen]

/-! ### One response per frame (R50) -/

/-- The lengths a response to `f` may have: as many bytes as the data where a data command succeeds, else the status
byte alone. -/
def RightLength (f : Frame) (status : Byte) (out : List Byte) : Prop :=
  ((f.head? = some 0x02#8 ∨ f.head? = some 0x03#8) → status = 0x00#8 → out.length + 1 = f.length) ∧
    (¬((f.head? = some 0x02#8 ∨ f.head? = some 0x03#8) ∧ status = 0x00#8) → out = [])

/-- The status byte alone answers an error, and an INIT. -/
theorem rightLength_nil {f : Frame} {status : Byte} (h : status ≠ 0x00#8 ∨ f.head? = some 0x01#8) :
    RightLength f status [] := by
  refine ⟨fun hf hs => ?_, fun _ => rfl⟩
  rcases h with h | h
  · exact absurd hs h
  · simp [h] at hf

/-- A frame is answered: one response of the right length, the frame off the port, back at a boundary. -/
def AnswersFrame (f : Frame) (s t : State) : Prop :=
  ∃ status out, t.rsp = s.rsp ++ [status :: out] ∧ t.host = s.host ∧ t.uir = none ∧ status.toNat ≤ 5 ∧
    RightLength f status out

/-- An error is an answer, its status byte 01 to 05. -/
theorem answersFrame_raise (f : Frame) (e : ErrorKind) {s : State} (hu : s.uir = none) :
    AnswersFrame f s (raise e s) := by
  have hstatus : (statusOf e).toNat ≤ 5 ∧ statusOf e ≠ 0x00#8 := by cases e <;> decide
  exact ⟨_, _, rfl, rfl, hu, hstatus.1, rightLength_nil (.inl hstatus.2)⟩

/-- So is a successful INIT. -/
theorem answersFrame_load {f : Frame} (hf : f.head? = some 0x01#8) (v : Variant) (w : Words) {s : State}
    (hu : s.uir = none) : AnswersFrame f s (respondOk [] (startStream v w s)) :=
  ⟨_, _, rfl, rfl, hu, Nat.zero_le 5, rightLength_nil (.inr hf)⟩

/-- So is a data command, one byte of output for each of its data. -/
theorem DataEffect.answersFrame {f : Frame} {bytes : List Byte} {s t : State} (h : DataEffect bytes s t)
    (hu : s.uir = none) (hlen : f.length = bytes.length + 1) (hf : f.head? = some 0x02#8 ∨ f.head? = some 0x03#8) :
    AnswersFrame f s t := by
  cases h with
  | error e he => exact answersFrame_raise f e hu
  | stream hne hst =>
    refine ⟨_, _, hst.rsp, hst.host, hst.uir, Nat.zero_le 5, fun _ _ => ?_, fun hnot => absurd ⟨hf, rfl⟩ hnot⟩
    rw [xorWith_length, hlen]

/-- Every frame is answered, from a command boundary with a legal cursor. -/
theorem runFrame_answers (f : Frame) {s : State} (hu : s.uir = none) (hc : s.cursor.toNat ≤ 64) :
    ∃ t, runFrame f s = .next t ∧ AnswersFrame f s t := by
  unfold runFrame
  rcases hd : decodeFrame f with _ | i
  · exact ⟨_, rfl, answersFrame_raise f .illegalCommand hu⟩
  · rcases decodeFrame_cases f i hd with ⟨key, nonce, rfl, hf⟩ | ⟨enc, bytes, rfl, hlen, hf⟩
    · rcases execInit_cases key nonce s with ⟨e, -, hx⟩ | ⟨v, w, -, hx⟩
      · exact ⟨_, hx, answersFrame_raise f e hu⟩
      · exact ⟨_, hx, answersFrame_load hf v w hu⟩
    · obtain ⟨t, ht, heff⟩ := exec_dataCommand_completes enc bytes s hc
      exact ⟨t, ht, heff.answersFrame hu hlen hf⟩

/-- Settles O52, by what the frame decodes to. -/
theorem oneResponsePerFrame : Obligations.OneResponsePerFrame := by
  intro s f rest hs hu hh
  have ⟨hc, _⟩ := hs
  obtain ⟨t, ht, status, out, hrsp, hhost, huir, hstatus, hlen⟩ := runFrame_answers f (s := withHost rest s) hu hc
  exact ⟨t, status, out, (step_of_frame hu hh).trans ht, hrsp, hhost, huir, hstatus, hlen⟩

end Sys2Proof.Machine
end

section
/-! SUPPORT. The family 40_init: the words INIT loads (R67, R68), its two errors (R66, R69), and the stream it starts
(R70, 70_reset_and_hazards R157). -/

namespace Sys2Proof.Machine

/-! ### The words a load writes (R68) -/

/-- A word DEC32LE reads inside its sequence, as a number (41_word_codec R75). -/
theorem toNat_of_dec32le {bytes : List Byte} {off : Nat} {w : Word} (h : off + 4 ≤ bytes.length)
    (hw : dec32le bytes off = some w) :
    w.toNat = bytes[off].toNat + 2 ^ 8 * bytes[off + 1].toNat + 2 ^ 16 * bytes[off + 2].toNat +
      2 ^ 24 * bytes[off + 3].toNat := by
  rw [dec32le_of_le bytes off h] at hw
  cases hw
  exact wordOfBytes_toNat ..

/-- `S[4..11]` are the key's words in order, `S[12..15]` the tail of the variant. -/
theorem loadState_words {v : Variant} {key nonce : List Byte} {w : Words} (h : loadState v key nonce = some w) :
    (∀ (i : Nat) (hi : i < 8), dec32le key (4 * i) = some w[4 + i]) ∧
      loadTail v nonce = some (w[12], w[13], w[14], w[15]) := by
  simp only [loadState, Option.bind_eq_bind, Option.bind_eq_some_iff] at h
  obtain ⟨k0, h0, k1, h1, k2, h2, k3, h3, k4, h4, k5, h5, k6, h6, k7, h7, tail, htail, hw⟩ := h
  cases hw
  refine ⟨fun i hi => ?_, htail⟩
  interval_cases i
  exacts [h0, h1, h2, h3, h4, h5, h6, h7]

/-- The classic tail: two zero counter words, two nonce words. -/
theorem loadState_classic_tail {key nonce : List Byte} {w : Words} (h : loadState .classic key nonce = some w) :
    w[12] = 0#32 ∧ w[13] = 0#32 ∧ ∀ (j : Nat) (hj : j < 2), dec32le nonce (4 * j) = some w[14 + j] := by
  obtain ⟨-, htail⟩ := loadState_words h
  simp only [loadTail, Option.bind_eq_bind, Option.bind_eq_some_iff, Option.pure_def, Option.some.injEq,
    Prod.mk.injEq] at htail
  obtain ⟨n0, h0, n1, h1, h12, h13, rfl, rfl⟩ := htail
  refine ⟨h12.symm, h13.symm, fun j hj => ?_⟩
  interval_cases j
  exacts [h0, h1]

/-- The IETF tail: one zero counter word, three nonce words. -/
theorem loadState_ietf_tail {key nonce : List Byte} {w : Words} (h : loadState .ietf key nonce = some w) :
    w[12] = 0#32 ∧ ∀ (j : Nat) (hj : j < 3), dec32le nonce (4 * j) = some w[13 + j] := by
  obtain ⟨-, htail⟩ := loadState_words h
  simp only [loadTail, Option.bind_eq_bind, Option.bind_eq_some_iff, Option.pure_def, Option.some.injEq,
    Prod.mk.injEq] at htail
  obtain ⟨n0, h0, n1, h1, n2, h2, h12, rfl, rfl, rfl⟩ := htail
  refine ⟨h12.symm, fun j hj => ?_⟩
  interval_cases j
  exacts [h0, h1, h2]

/-- The key's words, as numbers. -/
theorem Loads.keyWord_toNat {key nonce : List Byte} {v : Variant} {w : Words} (h : Loads key nonce v w)
    (hk : key.length = 32) (i : Nat) (hi : i < 8) :
    (w[4 + i]).toNat = key[4 * i].toNat + 2 ^ 8 * key[4 * i + 1].toNat + 2 ^ 16 * key[4 * i + 2].toNat +
      2 ^ 24 * key[4 * i + 3].toNat := by
  obtain ⟨-, -, hload⟩ := h
  obtain ⟨hkey, -⟩ := loadState_words hload
  exact toNat_of_dec32le (by omega) (hkey i hi)

/-- Settles O19: INIT loads, and each word is what DEC32LE reads at its place. -/
theorem initLoadsClassic : Obligations.InitLoadsClassic := by
  intro key nonce s hk hn
  obtain ⟨w, hl, -⟩ := loads_classic key nonce hk hn
  have ⟨_, _, hload⟩ := hl
  obtain ⟨h12, h13, hnonce⟩ := loadState_classic_tail hload
  exact ⟨_, exec_init_of_loads hl s, rfl, constantsLoaded_of_loads hl, hl.keyWord_toNat hk, h12, h13,
    fun j hj => toNat_of_dec32le (by omega) (hnonce j hj)⟩

/-- Settles O20: as in the classic layout, with one counter word and three nonce words. -/
theorem initLoadsIetf : Obligations.InitLoadsIetf := by
  intro key nonce s hk hn
  obtain ⟨w, hl, -⟩ := loads_ietf key nonce hk hn
  have ⟨_, _, hload⟩ := hl
  obtain ⟨h12, hnonce⟩ := loadState_ietf_tail hload
  exact ⟨_, exec_init_of_loads hl s, rfl, constantsLoaded_of_loads hl, hl.keyWord_toNat hk, h12,
    fun j hj => toNat_of_dec32le (by omega) (hnonce j hj)⟩

/-! ### The stream INIT starts (R70) -/

/-- A load with counter 0, at a command boundary, is position 0 of its own stream. -/
theorem atPosition_startStream {v : Variant} {base : Words} {s : State} (hb : AtBoundary s)
    (h0 : counterValue v base = 0) : AtPosition v base 0 (respondOk [] (startStream v base s)) := by
  have hS : base = withCounter v base (ceilBlocks 0) := by
    rw [show ceilBlocks 0 = counterValue v base from h0.symm, withCounter_self]
  exact ⟨hb, rfl, rfl, hS, rfl, fun hne => absurd rfl hne⟩

/-- Settles O27: either nonce length loads with counter 0. -/
theorem initStartsStream : Obligations.InitStartsStream := by
  intro key nonce s hb hk hn
  have ⟨v, base, hl, h0⟩ : ∃ v base, Loads key nonce v base ∧ counterValue v base = 0 := by
    rcases hn with h8 | h12
    · exact ⟨_, loads_classic key nonce hk h8⟩
    · exact ⟨_, loads_ietf key nonce hk h12⟩
  exact ⟨_, v, base, exec_init_of_loads hl s, hl, atPosition_startStream hb h0⟩

/-! ### INIT's two errors (R66, R69) -/

/-- One of INIT's errors: its status byte, `ready` cleared, nothing else changed. -/
theorem raise_of_clearsReady {e : ErrorKind} (h : clearsReady e = true) (s : State) :
    raise e s = { s with ready := false, rsp := s.rsp ++ [[statusOf e]] } := by
  simp [raise, respond, h]

/-- The key is tested first, whatever the nonce. -/
theorem exec_init_of_keyLength {key : List Byte} (hk : key.length ≠ 32) (nonce : List Byte) (s : State) :
    exec (.init key nonce) s = .next (raise .invalidKeyLength s) :=
  if_pos hk

/-- With a legal key, a nonce that selects no variant is the error. -/
theorem exec_init_of_nonceLength {key nonce : List Byte} (hk : key.length = 32)
    (hn : variantOfNonce nonce.length = none) (s : State) :
    exec (.init key nonce) s = .next (raise .invalidNonceLength s) := by
  simp [exec, execInit, keyBytes, hk, hn]

/-- Settles O21: the test that fails first names the error. -/
theorem initRejectsLengths : Obligations.InitRejectsLengths := by
  refine fun key nonce s => ⟨fun hk => ?_, fun hk h8 h12 => ?_⟩
  · rw [exec_init_of_keyLength hk, raise_of_clearsReady rfl, statusOf]
  · have hn : variantOfNonce nonce.length = none := by simp [variantOfNonce, h8, h12]
    rw [exec_init_of_nonceLength hk hn, raise_of_clearsReady rfl, statusOf]

end Sys2Proof.Machine
end

section
/-! SUPPORT. The family 41_word_codec: where DEC32LE has a result and which (R75, R78), the bytes of ENC32LE (R76), and
that the two undo each other (R77). -/

namespace Sys2Proof.Machine

/-! ### DEC32LE at every offset (R75, R78) -/

/-- DEC32LE has no result unless four bytes stand at its offset. -/
theorem dec32le_eq_none {bytes : List Byte} {off : Nat} (h : bytes.length < off + 4) : dec32le bytes off = none := by
  have hlen : (bytes.drop off).length < 4 := by rw [List.length_drop]; omega
  unfold dec32le
  split
  next heq => simp only [heq, List.length_cons] at hlen; omega
  next => rfl

/-- Settles O2, by whether the four bytes are there. -/
theorem codecDecodesLittleEndian : Obligations.CodecDecodesLittleEndian :=
  ⟨fun bytes off h =>
    have hdec := dec32le_of_le bytes off h
    ⟨_, hdec, toNat_of_dec32le h hdec⟩,
   fun _ _ => dec32le_eq_none⟩

/-! ### ENC32LE and the two inverse laws (R76, R77) -/

/-- Byte `j` of ENC32LE is the slice `w[8j+7:8j]`. -/
theorem enc32le_getElem (w : Word) (j : Nat) (hj : j < 4) : (enc32le w)[j] = w.extractLsb' (8 * j) 8 := by
  interval_cases j <;> rfl

/-- Byte `j` of ENC32LE as a number: base-256 digit `j` of the word. -/
theorem enc32le_getElem_toNat (w : Word) (j : Nat) (hj : j < 4) :
    (enc32le w)[j].toNat = w.toNat / 2 ^ (8 * j) % 256 := by
  rw [enc32le_getElem, BitVec.extractLsb'_toNat, Nat.shiftRight_eq_div_pow]

/-- The four bytes of a word combine to the word. -/
theorem wordOfBytes_enc32le (w : Word) :
    wordOfBytes (enc32le w)[0] (enc32le w)[1] (enc32le w)[2] (enc32le w)[3] = w := by
  apply BitVec.eq_of_toNat_eq
  rw [wordOfBytes_toNat]
  simp only [enc32le_getElem_toNat]
  omega

/-- ENC32LE gives back the bytes a word was combined from. -/
theorem enc32le_wordOfBytes (q : Vector Byte 4) : enc32le (wordOfBytes q[0] q[1] q[2] q[3]) = q := by
  ext j hj : 1
  apply BitVec.eq_of_toNat_eq
  rw [enc32le_getElem_toNat, wordOfBytes_toNat]
  interval_cases j <;> omega

/-- DEC32LE on a four-byte sequence. -/
theorem dec32le_toList (q : Vector Byte 4) : dec32le q.toList 0 = some (wordOfBytes q[0] q[1] q[2] q[3]) := by
  rw [dec32le_of_le q.toList 0 (by simp)]
  simp only [Nat.zero_add, Vector.getElem_toList]

/-- Settles O3: the digits of a word (R76), and the two laws of R77 on the four bytes DEC32LE reads. -/
theorem codecInverse : Obligations.CodecInverse := by
  refine ⟨enc32le_getElem_toNat, fun w => ?_, fun q => ?_⟩
  · rw [dec32le_toList, wordOfBytes_enc32le]
  · rw [dec32le_toList, Option.map_some, enc32le_wordOfBytes]

end Sys2Proof.Machine
end

section
/-! SUPPORT. The family 42_block_function: the word operations (R80 to R82), the quarter-round word by word and as a
bijection (R84), the order of a round's quarter-rounds (R86), PERMUTE (R90), and the micro-operations LDMIX, FFWD, SER
with BLOCK's bytes (R88, R91 to R93). -/

namespace Sys2Proof.Machine

/-! ### The word operations (R80 to R82) -/

theorem add32_toNat (a b : Word) : (add32 a b).toNat = (a.toNat + b.toNat) % 2 ^ 32 := BitVec.toNat_add a b

theorem xor32_xor32_cancel (a b : Word) : xor32 (xor32 a b) b = a := by
  rw [xor32, xor32, BitVec.xor_assoc, BitVec.xor_self, BitVec.xor_zero]

/-- The two parts of ROTL32 as numbers (R82's formula). -/
theorem rotl32_toNat (w : Word) (n : Nat) :
    (rotl32 w n).toNat = ((w.toNat * 2 ^ n) % 2 ^ 32 ||| w.toNat / 2 ^ (32 - n)) := by
  rw [rotl32, BitVec.toNat_or, BitVec.toNat_shiftLeft, BitVec.toNat_ushiftRight, Nat.shiftLeft_eq,
    Nat.shiftRight_eq_div_pow]

/-- Bit `i` of a rotated word is the bit `n` places below it, around the word's end. -/
theorem rotl32_getLsbD (w : Word) {n i : Nat} (h0 : 0 < n) (hn : n < 32) (hi : i < 32) :
    (rotl32 w n).getLsbD i = w.getLsbD ((i + (32 - n)) % 32) := by
  rw [rotl32_eq_rotateLeft w n h0 hn, BitVec.getLsbD_rotateLeft, Nat.mod_eq_of_lt hn]
  by_cases hlow : i < n
  · rw [decide_eq_true hlow, cond_true, Nat.mod_eq_of_lt (by omega), Nat.add_comm]
  · have hidx : (i + (32 - n)) % 32 = i - n := by omega
    rw [decide_eq_false hlow, cond_false, decide_eq_true hi, Bool.true_and, hidx]

/-- Bit `k` moves to bit `(k + n) mod 32`. -/
theorem rotl32_getLsbD_moved (w : Word) {n k : Nat} (h0 : 0 < n) (hn : n < 32) (hk : k < 32) :
    (rotl32 w n).getLsbD ((k + n) % 32) = w.getLsbD k := by
  have hidx : ((k + n) % 32 + (32 - n)) % 32 = k := by omega
  rw [rotl32_getLsbD w h0 hn (by omega), hidx]

/-- Rotating on by the rest of the word's width gives the word back. -/
theorem rotl32_rotl32_cancel (w : Word) {n : Nat} (h0 : 0 < n) (hn : n < 32) : rotl32 (rotl32 w n) (32 - n) = w := by
  apply BitVec.eq_of_getLsbD_eq
  intro i hi
  have hidx : ((i + (32 - (32 - n))) % 32 + (32 - n)) % 32 = i := by omega
  rw [rotl32_getLsbD _ (by omega) (by omega) hi, rotl32_getLsbD w h0 hn (by omega), hidx]

/-- Settles O1: the sum, the bits and the rotation, each by its law. -/
theorem wordOperationLaws : Obligations.WordOperationLaws := by
  refine ⟨fun a b => ⟨add32_toNat a b, BitVec.add_comm a b, BitVec.add_sub_cancel a b, BitVec.add_assoc a b⟩,
    fun a b => ⟨xor32_xor32_cancel a b, fun k _ => BitVec.getLsbD_xor⟩, fun w n h0 hn => ?_⟩
  exact ⟨rotl32_toNat w n, rotl32_rotl32_cancel w h0 hn, fun k hk => rotl32_getLsbD_moved w h0 hn hk⟩

/-! ### The quarter-round, word by word (R84) -/

/-- The indices of a QR, pair by pair. -/
theorem ne_of_nodup {a b c d : Fin 16} (h : [a, b, c, d].Nodup) :
    a ≠ b ∧ a ≠ c ∧ a ≠ d ∧ b ≠ c ∧ b ≠ d ∧ c ≠ d := by
  simpa [and_assoc] using h

/-- A line writes no word but the one it adds into and the one it rotates. -/
theorem arxLine_get_other (m : Words) {x z i : Fin 16} (y : Fin 16) {n : Nat} (hn : 0 < n) (hn' : n < 32)
    (h : x ≠ z) (hx : i ≠ x) (hz : i ≠ z) : (arxLine m x y z n)[i] = m[i] := by
  rw [arxLine_get m x y z n hn hn' h, if_neg hz, if_neg hx]

/-- QR keeps the words outside its four indices. -/
theorem quarterRound_get_other (m : Words) {a b c d i : Fin 16} (h : [a, b, c, d].Nodup) (hi : i ∉ [a, b, c, d]) :
    (quarterRound m a b c d)[i] = m[i] := by
  obtain ⟨-, -, had, hbc, -⟩ := ne_of_nodup h
  simp only [List.mem_cons, List.not_mem_nil, not_or] at hi
  obtain ⟨ha, hb, hc, hd, -⟩ := hi
  have hcb := hbc.symm
  rw [quarterRound, arxLine_get_other _ d (by omega) (by omega) hcb hc hb,
    arxLine_get_other _ b (by omega) (by omega) had ha hd, arxLine_get_other _ d (by omega) (by omega) hcb hc hb,
    arxLine_get_other _ b (by omega) (by omega) had ha hd]

/-- Settles O4: the frame word by word, and on the four words one line after the other. -/
theorem quarterRoundLanes : Obligations.QuarterRoundLanes := by
  intro a b c d s h
  refine ⟨_, exec_qr_eq_next.2 ⟨(distinctIndices_iff a b c d).2 h, rfl⟩, rfl,
    fun i hi => quarterRound_get_other s.M h hi, ?_⟩
  obtain ⟨hab, hac, had, hbc, hbd, hcd⟩ := ne_of_nodup h
  simp only [quarterRound, arxLine_get, Nat.reduceLT, ne_eq, not_false_eq_true, if_true, if_false, and_self,
    hab, hac, had, hbc, hbd, hcd, hab.symm, hac.symm, had.symm, hbc.symm, hbd.symm, hcd.symm]

/-! ### The quarter-round is a bijection (R84) -/

/-- Combining one word with another can be undone where the operation can, the other word being kept. -/
theorem set_leftInverse {op inv : Word → Word → Word} (h : ∀ u v, inv (op u v) v = u) {x y : Fin 16} (hxy : x ≠ y) :
    Function.LeftInverse (fun m : Words => m.set x (inv m[x] m[y])) (fun m : Words => m.set x (op m[x] m[y])) := by
  intro m
  have hval : x.val ≠ y.val := fun e => hxy (Fin.ext e)
  simp [Vector.getElem_set_ne _ _ hval, h]

/-- Such a combination is a bijection of the sixteen words. -/
theorem set_bijective {op inv : Word → Word → Word} (h : ∀ u v, inv (op u v) v = u) (h' : ∀ u v, op (inv u v) v = u)
    {x y : Fin 16} (hxy : x ≠ y) : Function.Bijective fun m : Words => m.set x (op m[x] m[y]) :=
  Function.bijective_iff_has_inverse.2 ⟨_, set_leftInverse h hxy, set_leftInverse h' hxy⟩

theorem addInto_bijective {x y : Fin 16} (h : x ≠ y) : Function.Bijective fun m => addInto m x y :=
  set_bijective (inv := fun u v => u - v) BitVec.add_sub_cancel BitVec.sub_add_cancel h

theorem xorInto_bijective {x y : Fin 16} (h : x ≠ y) : Function.Bijective fun m => xorInto m x y :=
  set_bijective xor32_xor32_cancel xor32_xor32_cancel h

/-- A rotation reads one word only; `y` is any other. -/
theorem rotateAt_bijective {x y : Fin 16} {n : Nat} (h0 : 0 < n) (hn : n < 32) (h : x ≠ y) :
    Function.Bijective fun m => rotateAt m x n := by
  refine set_bijective (op := fun u _ => rotl32 u n) (inv := fun u _ => rotl32 u (32 - n))
    (fun u _ => rotl32_rotl32_cancel u h0 hn) (fun u _ => ?_) h
  have hback := rotl32_rotl32_cancel u (n := 32 - n) (by omega) (by omega)
  rwa [Nat.sub_sub_self hn.le] at hback

/-- One line of the quarter-round. -/
theorem arxLine_bijective {x y z : Fin 16} {n : Nat} (h0 : 0 < n) (hn : n < 32) (hxy : x ≠ y) (hzx : z ≠ x) :
    Function.Bijective fun m => arxLine m x y z n :=
  (rotateAt_bijective h0 hn hzx).comp ((xorInto_bijective hzx).comp (addInto_bijective hxy))

/-- Settles O6: QR is four lines, each a bijection. -/
theorem quarterRoundBijective : Obligations.QuarterRoundBijective := by
  intro a b c d h
  obtain ⟨hab, -, had, hbc, -, hcd⟩ := ne_of_nodup h
  have hda := had.symm
  exact (arxLine_bijective (by omega) (by omega) hcd hbc).comp <|
    (arxLine_bijective (by omega) (by omega) hab hda).comp <|
    (arxLine_bijective (by omega) (by omega) hcd hbc).comp (arxLine_bijective (by omega) (by omega) hab hda)

/-! ### The order of a round's quarter-rounds (R86) -/

/-- The four indices of a group. -/
def groupIndices (g : Group) : List (Fin 16) := [g.1, g.2.1, g.2.2.1, g.2.2.2]

/-- Two buffers agree on the indices listed. -/
def AgreeOn (is : List (Fin 16)) (m m' : Words) : Prop := ∀ i ∈ is, m[i] = m'[i]

/-- A line on listed indices reads listed words only. -/
theorem AgreeOn.arxLine {is : List (Fin 16)} {m m' : Words} (h : AgreeOn is m m') {x y z : Fin 16} {n : Nat}
    (h0 : 0 < n) (hn : n < 32) (hxz : x ≠ z) (hx : x ∈ is) (hy : y ∈ is) (hz : z ∈ is) :
    AgreeOn is (arxLine m x y z n) (arxLine m' x y z n) := by
  intro i hi
  rw [arxLine_get m x y z n h0 hn hxz, arxLine_get m' x y z n h0 hn hxz, h x hx, h y hy, h z hz, h i hi]

/-- What QR writes depends on its own four words only. -/
theorem AgreeOn.qrGroup {g : Group} {m m' : Words} (hg : (groupIndices g).Nodup) (h : AgreeOn (groupIndices g) m m') :
    AgreeOn (groupIndices g) (qrGroup m g) (qrGroup m' g) := by
  obtain ⟨a, b, c, d⟩ := g
  obtain ⟨-, -, had, hbc, -⟩ := ne_of_nodup hg
  have ha : a ∈ groupIndices (a, b, c, d) := by simp [groupIndices]
  have hb : b ∈ groupIndices (a, b, c, d) := by simp [groupIndices]
  have hc : c ∈ groupIndices (a, b, c, d) := by simp [groupIndices]
  have hd : d ∈ groupIndices (a, b, c, d) := by simp [groupIndices]
  have h1 := h.arxLine (n := 16) (by omega) (by omega) had ha hb hd
  have h2 := h1.arxLine (n := 12) (by omega) (by omega) hbc.symm hc hd hb
  have h3 := h2.arxLine (n := 8) (by omega) (by omega) had ha hb hd
  exact h3.arxLine (n := 7) (by omega) (by omega) hbc.symm hc hd hb

theorem qrGroup_get_other (m : Words) {g : Group} {i : Fin 16} (hg : (groupIndices g).Nodup) (hi : i ∉ groupIndices g) :
    (qrGroup m g)[i] = m[i] := quarterRound_get_other m hg hi

/-- On the words of `g`, a QR on a disjoint group beforehand or afterwards makes no difference. -/
theorem agreeOn_qrGroup_disjoint (m : Words) {g g' : Group} (hg : (groupIndices g).Nodup)
    (hg' : (groupIndices g').Nodup) (hd : (groupIndices g).Disjoint (groupIndices g')) :
    AgreeOn (groupIndices g) (qrGroup (qrGroup m g) g') (qrGroup (qrGroup m g') g) := by
  have hkept (m : Words) : AgreeOn (groupIndices g) (qrGroup m g') m := fun i hi => qrGroup_get_other m hg' (hd hi)
  exact fun i hi => (hkept (qrGroup m g) i hi).trans ((hkept m).qrGroup hg i hi).symm

/-- QRs on disjoint groups commute. -/
theorem qrGroup_comm (m : Words) {g g' : Group} (hg : (groupIndices g).Nodup) (hg' : (groupIndices g').Nodup)
    (hd : (groupIndices g).Disjoint (groupIndices g')) :
    qrGroup (qrGroup m g) g' = qrGroup (qrGroup m g') g := by
  apply words_ext
  intro i
  by_cases hi : i ∈ groupIndices g
  · exact agreeOn_qrGroup_disjoint m hg hg' hd i hi
  · by_cases hi' : i ∈ groupIndices g'
    · exact (agreeOn_qrGroup_disjoint m hg' hg hd.symm i hi').symm
    · simp only [qrGroup_get_other _ hg hi, qrGroup_get_other _ hg' hi']

/-- Where no index is listed twice, the order of the groups does not matter. -/
theorem qrGroups_perm {gs gs' : List Group} (h : (gs.flatMap groupIndices).Nodup) (hp : gs'.Perm gs) :
    qrGroups gs' = qrGroups gs := by
  obtain ⟨hnodup, hdisj⟩ := List.nodup_flatMap.1 h
  have hsymm : Std.Symm (Function.onFun List.Disjoint groupIndices) := ⟨fun _ _ hd => List.Disjoint.symm hd⟩
  funext m
  refine (List.Perm.foldl_eq' hp.symm (fun g hg g' hg' m => ?_) m).symm
  by_cases heq : g = g'
  · rw [heq]
  · exact qrGroup_comm m (hnodup g hg) (hnodup g' hg') (hdisj.forall hg hg' heq)

/-- The groups of a round list every index once (R85). -/
theorem roundGroups_cover : ∀ gs ∈ [columnGroups, diagonalGroups],
    (gs.flatMap groupIndices).Perm (List.finRange 16) := by
  decide

theorem roundGroups_nodup {gs : List Group} (h : gs ∈ [columnGroups, diagonalGroups]) :
    (gs.flatMap groupIndices).Nodup :=
  (roundGroups_cover gs h).nodup_iff.2 (List.nodup_finRange 16)

/-- A buffer that tells a column round and a diagonal round apart: one word set. -/
def orderWitness : Words := (Vector.replicate 16 0#32).set 0 1#32

theorem rounds_not_comm :
    qrGroups diagonalGroups (qrGroups columnGroups orderWitness) ≠
      qrGroups columnGroups (qrGroups diagonalGroups orderWitness) := by
  decide

/-- Settles O7: disjoint groups commute, and both rounds list each index once; `orderWitness` tells the two
orders apart. -/
theorem roundLanesIndependent : Obligations.RoundLanesIndependent :=
  ⟨fun _ hp => qrGroups_perm (roundGroups_nodup (by simp)) hp,
    fun _ hp => qrGroups_perm (roundGroups_nodup (by simp)) hp,
    roundGroups_cover, orderWitness, rounds_not_comm⟩

/-! ### PERMUTE (R90) -/

/-- QRs on groups of distinct indices, one after the other. -/
theorem qrGroups_bijective {gs : List Group} (h : ∀ g ∈ gs, (groupIndices g).Nodup) :
    Function.Bijective (qrGroups gs) := by
  induction gs with
  | nil => exact Function.bijective_id
  | cons g gs ih =>
    obtain ⟨hg, hgs⟩ := List.forall_mem_cons.1 h
    exact (ih hgs).comp (quarterRoundBijective _ _ _ _ hg)

theorem round_bijective {gs : List Group} (h : gs ∈ [columnGroups, diagonalGroups]) :
    Function.Bijective (qrGroups gs) :=
  qrGroups_bijective (List.nodup_flatMap.1 (roundGroups_nodup h)).1

theorem doubleRound_bijective : Function.Bijective doubleRound := by
  have hcomp : doubleRound = qrGroups diagonalGroups ∘ qrGroups columnGroups := by
    funext m
    rw [doubleRound, Function.comp]
  rw [hcomp]
  exact (round_bijective (by simp)).comp (round_bijective (by simp))

theorem permute_bijective : Function.Bijective permute := by
  rw [funext permute_eq_iterate]
  exact doubleRound_bijective.iterate 10

/-- A line on zero words: sums, exclusive-ors and rotations of zero are zero. -/
theorem arxLine_zero (x y z : Fin 16) (n : Nat) :
    arxLine (Vector.replicate 16 0#32) x y z n = Vector.replicate 16 0#32 := by
  simp [arxLine, rotateAt, xorInto, addInto, rotl32, xor32, add32]

theorem qrGroups_zero (gs : List Group) : qrGroups gs (Vector.replicate 16 0#32) = Vector.replicate 16 0#32 := by
  refine List.foldl_fixed' (fun g => ?_) gs
  rw [qrGroup, quarterRound, arxLine_zero, arxLine_zero, arxLine_zero, arxLine_zero]

theorem permute_zero : permute (Vector.replicate 16 0#32) = Vector.replicate 16 0#32 := by
  have hround : doubleRound (Vector.replicate 16 0#32) = Vector.replicate 16 0#32 := by
    rw [doubleRound, qrGroups_zero, qrGroups_zero]
  rw [permute_eq_iterate, Function.iterate_fixed hround]

/-- Settles O8: a composition of bijections that each fix the zero buffer; the fields of `permuteMix` say the rest. -/
theorem permuteProperties : Obligations.PermuteProperties := by
  refine ⟨permute_bijective, permute_zero, fun s s' h => ⟨?_, permuteMix_S s⟩⟩
  rw [permuteMix_M, permuteMix_M, h]

/-! ### LDMIX, FFWD, SER and BLOCK (R88, R91 to R93) -/

theorem addWords_get (m s : Words) (i : Nat) (hi : i < 16) : (addWords m s)[i] = add32 m[i] s[i] :=
  Vector.getElem_ofFn hi

/-- Byte `4 * i + j` of SER's block is byte `j` of word `i`. -/
theorem serialize_get (m : Words) {i j : Nat} (hi : i < 16) (hj : j < 4) :
    (serialize m)[4 * i + j] = (enc32le m[i])[j] := by
  have hdiv : (4 * i + j) / 4 = i := by omega
  have hmod : (4 * i + j) % 4 = j := by omega
  simp only [serialize, Vector.getElem_ofFn, hdiv, hmod]

/-- Settles O9, by the update of LDMIX. -/
theorem ldmixCopiesState : Obligations.LdmixCopiesState :=
  fun s => ⟨ldmix s, rfl, rfl, fun i => by rw [ldmix_M], rfl⟩

/-- Settles O10, word by word. -/
theorem ffwdAddsState : Obligations.FfwdAddsState := by
  refine fun s => ⟨ffwd s, rfl, rfl, fun i => ?_, rfl⟩
  simp only [ffwd_M, Fin.getElem_fin, addWords_get, add32_toNat]

/-- Settles O11: SER's bytes are those of ENC32LE. -/
theorem serWritesBlock : Obligations.SerWritesBlock := by
  refine fun s => ⟨ser s, rfl, rfl, fun i j hi hj => ?_, rfl⟩
  simp only [ser_B, serialize_get s.M hi hj, enc32le_getElem _ j hj]

/-- Settles O13: SER's bytes of the sum of PERMUTE and the state words. -/
theorem blockBytes : Obligations.BlockBytes := by
  intro s i j hi hj
  simp only [blockFunction, resultWords, serialize_get _ hi hj, enc32le_getElem_toNat _ j hj, addWords_get, add32_toNat]

end Sys2Proof.Machine
end

section
/-! SUPPORT. The family 43_counter: CTRINC word by word and as a number (R100, R102, R103), the counter and the cursor a
data command leaves at a position of its stream (R105), and the period of an IETF keystream (R103, R104). -/

namespace Sys2Proof.Machine

/-! ### CTRINC word by word (R100) -/

theorem incrementCounter_get_low (v : Variant) (s : Words) : (incrementCounter v s)[12] = s[12] + 1#32 := by
  unfold incrementCounter
  dsimp only
  split
  · rw [Vector.getElem_set_ne _ _ (by decide), Vector.getElem_set_self, add32]
  · rw [Vector.getElem_set_self, add32]

/-- The low word wraps exactly from its greatest value. -/
theorem counterCarry_iff (v : Variant) (w : Word) :
    counterCarry v (add32 w 1#32) = true ↔ v = .classic ∧ w = 0xFFFFFFFF#32 := by
  cases v with
  | classic =>
    simp only [counterCarry, add32, beq_iff_eq, true_and]
    bv_omega
  | ietf => simp [counterCarry]

theorem incrementCounter_get_high (v : Variant) (s : Words) :
    (incrementCounter v s)[13] = if v = .classic ∧ s[12] = 0xFFFFFFFF#32 then s[13] + 1#32 else s[13] := by
  unfold incrementCounter
  simp only [counterCarry_iff]
  split
  · rw [Vector.getElem_set_self, add32]
  · rw [Vector.getElem_set_ne _ _ (by decide)]

/-- Settles O14: CTRINC's two words, and the frame of the counter field. -/
theorem ctrincCarries : Obligations.CtrincCarries := by
  refine fun s => ⟨ctrinc s, rfl, rfl, ?_, ?_, fun i h12 h13 => ?_, rfl, rfl⟩
  · rw [ctrinc_S, incrementCounter_get_low]
  · rw [ctrinc_S, incrementCounter_get_high]
  · rw [ctrinc_S, incrementCounter_eq, withCounter_get_other _ _ _ i h12 (.inl h13)]

/-! ### CTRINC on the counter as a number (R102, R103) -/

/-- Repeated increments add up in the counter field. -/
theorem iterate_incrementCounter (v : Variant) (s : Words) (n : Nat) :
    (incrementCounter v)^[n] s = withCounter v s (counterValue v s + n) := by
  induction n with
  | zero => exact (withCounter_self v s).symm
  | succ n ih =>
    rw [Function.iterate_succ_apply', ih, incrementCounter_eq, withCounter_withCounter, counterValue_withCounter]
    apply withCounter_congr
    rw [Nat.mod_add_mod, Nat.add_assoc]

/-- Settles O15: the field counts modulo its range, so a full range of increments is none. -/
theorem counterWraps : Obligations.CounterWraps := by
  refine ⟨fun v s => ?_, fun v s => ?_⟩
  · rw [incrementCounter_eq, counterValue_withCounter]
  · calc (incrementCounter v)^[counterRange v] s
        = withCounter v s (counterValue v s + counterRange v) := iterate_incrementCounter v s _
      _ = withCounter v s (counterValue v s) := withCounter_congr v s _ _ (Nat.add_mod_right _ _)
      _ = s := withCounter_self v s

/-! ### A data command at a position of its stream (R101, 10_state R18) -/

/-- The blocks a command generates are those its bytes add to the position. -/
theorem ceilBlocks_add_genRuns (p n : Nat) : ceilBlocks p + genRuns (cursorAt p) n = ceilBlocks (p + n) := by
  simp only [genRuns, cursorAt, ceilBlocks]
  split_ifs <;> omega

/-- A command moves the cursor of its position to that of the position its bytes reach. -/
theorem cursorAfterBytes_cursorAt (p n : Nat) : cursorAfterBytes (cursorAt p) n = cursorAt (p + n) := by
  simp only [cursorAfterBytes, cursorAt, ceilBlocks]
  split_ifs <;> omega

/-- The state words after a data command from position `p`. -/
theorem Streamed.S_of_atPosition {v : Variant} {base : Words} {p : Nat} {bytes : List Byte} {s t : State}
    (h : Streamed bytes s t) (hs : AtPosition v base p s) :
    t.S = withCounter v base (ceilBlocks (p + bytes.length)) := by
  obtain ⟨-, -, hv, hS, hc, -⟩ := hs
  rw [h.S, runsFor, hc, hv, hS, withCounter_withCounter, counterValue_withCounter]
  apply withCounter_congr
  rw [Nat.mod_add_mod, ceilBlocks_add_genRuns]

/-- The cursor after a data command from position `p`. -/
theorem Streamed.cursor_of_atPosition {v : Variant} {base : Words} {p : Nat} {bytes : List Byte} {s t : State}
    (h : Streamed bytes s t) (hs : AtPosition v base p s) : t.cursor.toNat = cursorAt (p + bytes.length) := by
  obtain ⟨-, -, -, -, hc, -⟩ := hs
  rw [h.cursor, hc, cursorAfterBytes_cursorAt]

/-- The response to a data command from position `p`: the data combined with the keystream from there. -/
theorem Streamed.rsp_of_atPosition {v : Variant} {base : Words} {p : Nat} {bytes : List Byte} {s t : State}
    (h : Streamed bytes s t) (hs : AtPosition v base p s) :
    t.rsp = s.rsp ++ [statusOk :: xorWith (fun i => keystreamByte v base (p + i)) bytes] := by
  rw [h.rsp, funext (upcomingByte_of_atPosition v base p s hs)]

/-- At a position of a stream a data command completes. -/
theorem exec_dataCommand_of_atPosition (enc : Bool) {v : Variant} {base : Words} {p : Nat} {bytes : List Byte}
    {s : State} (hs : AtPosition v base p s) (hne : bytes ≠ []) :
    ∃ t, exec (dataCommand enc bytes) s = .next t ∧ Streamed bytes s t := by
  obtain ⟨-, hr, -, -, hc, -⟩ := hs
  exact exec_dataCommand_streamed enc hr hne (hc ▸ cursorAt_le p)

/-! ### The counter after a classic INIT and some bytes (R105) -/

/-- Whatever the bytes, a classic stream's counter words and cursor depend on their number alone. -/
theorem execAll_classic_init_dataCommand {key nonce bytes : List Byte} (enc : Bool) {s : State} (hb : AtBoundary s)
    (hk : key.length = 32) (hn : nonce.length = 8) (hne : bytes ≠ []) :
    ∃ t, execAll [.init key nonce, dataCommand enc bytes] s = .next t ∧
      t.S[12] = BitVec.ofNat 32 (ceilBlocks bytes.length) ∧
      t.S[13] = BitVec.ofNat 32 (ceilBlocks bytes.length / 2 ^ 32) ∧ t.cursor.toNat = cursorAt bytes.length := by
  obtain ⟨base, hl, h0⟩ := loads_classic key nonce hk hn
  have hpos := atPosition_startStream hb h0
  obtain ⟨t, ht, hst⟩ := exec_dataCommand_of_atPosition enc hpos hne
  have hS := hst.S_of_atPosition hpos
  have hc := hst.cursor_of_atPosition hpos
  rw [Nat.zero_add] at hS hc
  refine ⟨t, ?_, ?_, ?_, hc⟩
  · simp only [execAll, exec_init_of_loads hl, ht, andThen]
  · simp [hS, withCounter]
  · simp [hS, withCounter]

/-- Settles O29: 4096 bytes are 64 whole blocks, and one byte more begins the 65th. -/
theorem counterAfter4096Bytes : Obligations.CounterAfter4096Bytes := by
  intro key nonce bytes enc x s hb hk hn hlen
  have hne : bytes ≠ [] := List.ne_nil_of_length_pos (by omega)
  have hlen' : (bytes ++ [x]).length = 4097 := by simp [hlen]
  obtain ⟨t, ht, tlow, thigh, tcur⟩ := execAll_classic_init_dataCommand enc hb hk hn hne
  obtain ⟨u, hu, ulow, uhigh, ucur⟩ :=
    execAll_classic_init_dataCommand enc hb hk hn (List.concat_ne_nil x bytes)
  rw [hlen] at tlow thigh tcur
  rw [hlen'] at ulow uhigh ucur
  exact ⟨t, u, ht, tlow, thigh, tcur, hu, ulow, uhigh, ucur⟩

/-! ### The period of the IETF keystream (R103, R104) -/

/-- `2^38` bytes are `2^32` blocks, a full range of the IETF counter. -/
theorem ceilBlocks_add_period (n : Nat) : ceilBlocks (n + 2 ^ 38) = ceilBlocks n + counterRange .ietf := by
  simp only [ceilBlocks, counterRange]
  omega

theorem keystreamByte_ietf_add_period (base : Words) (k : Nat) :
    keystreamByte .ietf base (k + 2 ^ 38) = keystreamByte .ietf base k := by
  refine keystreamByte_congr .ietf base _ _ (by omega) ?_
  rw [counterRange]
  omega

/-- Settles O33: both positions have the same keystream and the same counter words to come. -/
theorem ietfKeystreamPeriod : Obligations.IetfKeystreamPeriod := by
  intro base p enc bytes s s' hs hs' hne
  obtain ⟨t, ht, hst⟩ := exec_dataCommand_of_atPosition enc hs hne
  obtain ⟨t', ht', hst'⟩ := exec_dataCommand_of_atPosition enc hs' hne
  refine ⟨t, t', _, ht, ht', hst.rsp_of_atPosition hs, ?_, ?_⟩
  · rw [hst'.rsp_of_atPosition hs']
    simp only [Nat.add_right_comm p, keystreamByte_ietf_add_period, statusOk]
  · rw [hst.S_of_atPosition hs, hst'.S_of_atPosition hs', Nat.add_right_comm, ceilBlocks_add_period]
    exact withCounter_congr .ietf base _ _ (Nat.add_mod_right _ _)

end Sys2Proof.Machine
end

section
/-! SUPPORT. The family 44_stream: CLRCUR and XORB (R107, R108), GEN and the byte step (R109 to R111), what a data command
does from a command boundary (R112, R113), the position it reaches (R114), its data in pieces (R115), two cores on one
stream (R117), and the two variants on one nonce (R118). -/

namespace Sys2Proof.Machine

/-! ### CLRCUR and XORB (R107, R108) -/

/-- Settles O16: the update of `cursor`, and the last word of the GEN table. -/
theorem clrcurClearsCursor : Obligations.ClrcurClearsCursor := by
  intro s
  exact ⟨clrcur s, rfl, rfl, rfl, rfl, by decide, by decide⟩

/-- Settles O17: XORB inside its precondition, whose cursor does not overflow its seven bits. -/
theorem xorbEmitsByte : Obligations.XorbEmitsByte := by
  intro s x rest hd hc
  refine ⟨_, xorb_of_cons s x rest hd (by omega), rfl, rfl, ?_, rfl, by decide⟩
  rw [BitVec.toNat_add]
  exact Nat.mod_eq_of_lt (show s.cursor.toNat + 1 < 128 by omega)

/-- XORB without a data byte. -/
theorem xorb_of_nil {s : State} (hd : s.data = []) : xorb s = .fault .noDataByte := by
  rw [xorb, hd]

/-- XORB past the end of `B`. -/
theorem xorb_of_le {s : State} (hd : s.data ≠ []) (hc : 64 ≤ s.cursor.toNat) :
    xorb s = .fault .blockIndexOutOfRange := by
  obtain ⟨x, rest, hcons⟩ := List.exists_cons_of_ne_nil hd
  rw [xorb, hcons]
  exact dif_neg (by omega)

/-- Settles O18: the two ways out of the precondition. -/
theorem xorbStopsOutsidePrecondition : Obligations.XorbStopsOutsidePrecondition :=
  fun _ => ⟨xorb_of_nil, xorb_of_le⟩

/-! ### GEN and the byte step (R109 to R111) -/

/-- Settles O12, field by field. -/
theorem genNetEffect : Obligations.GenNetEffect := by
  intro s
  apply state_ext <;> simp [incrementCounter_eq]

/-- Settles O25: a cursor strictly inside the block needs no GEN. -/
theorem cursorEvolution : Obligations.CursorEvolution := by
  intro s hd hc
  obtain ⟨x, rest, hcons⟩ := List.exists_cons_of_ne_nil hd
  obtain ⟨t, ht, -, -, hcur, -, -, -, -, -, -, -, hkept⟩ := byteStep_spec s x rest hcons hc
  refine ⟨t, ht, ?_, fun h1 h63 => ?_⟩
  · rw [hcur]
    split <;> omega
  · obtain ⟨-, hS, hM, hB⟩ := hkept (by omega)
    exact ⟨hS, hM, hB⟩

/-! ### A data command from a command boundary (R112, R113) -/

/-- A data command from a command boundary writes only `S`, `M`, `B`, `cursor` and the response port. -/
theorem Streamed.frame {bytes : List Byte} {s t : State} (h : Streamed bytes s t) (hb : AtBoundary s) :
    t = { s with S := t.S, M := t.M, B := t.B, cursor := t.cursor, rsp := t.rsp } := by
  have ⟨hu, hd, ho, hseq⟩ := hb
  obtain ⟨-, -, -, htseq⟩ := h.atBoundary hseq
  exact state_ext rfl rfl rfl rfl h.variant h.ready (htseq.trans hseq.symm) (h.uir.trans hu.symm)
    (h.data.trans hd.symm) (h.out.trans ho.symm) h.host rfl h.resets

/-- Settles O24: the fields of `Streamed`. -/
theorem dataCommandCompletes : Obligations.DataCommandCompletes := by
  intro enc bytes s hb hr hc hne
  obtain ⟨t, ht, hst⟩ := exec_dataCommand_streamed enc hr hne hc
  refine ⟨t, ht, ?_, hst.S, hst.cursor, fun h0 => (hst.kept h0).2, fun h0 => (hst.generated h0).2⟩
  have hframe := hst.frame hb
  rwa [hst.rsp] at hframe

/-! ### The position a data command reaches (R114) -/

/-- Counting on from a counter that was set. -/
theorem withCounter_add (v : Variant) (base : Words) (m n : Nat) :
    withCounter v (withCounter v base m) (counterValue v (withCounter v base m) + n) = withCounter v base (m + n) := by
  rw [withCounter_withCounter, counterValue_withCounter]
  exact withCounter_congr v base _ _ (Nat.mod_add_mod _ _ _)

/-- The last of the blocks counted on from a counter that was set. -/
theorem withCounter_add_sub_one (v : Variant) (base : Words) (m : Nat) {n : Nat} (hn : n ≠ 0) :
    withCounter v (withCounter v base m) (counterValue v (withCounter v base m) + n - 1) =
      withCounter v base (m + n - 1) := by
  have hpos := Nat.one_le_iff_ne_zero.2 hn
  rw [Nat.add_sub_assoc hpos, Nat.add_sub_assoc hpos, withCounter_add]

/-- A data command moves a stream on by its bytes: it generates the blocks they need, or stays in the block at hand. -/
theorem Streamed.atPosition {v : Variant} {base : Words} {p : Nat} {bytes : List Byte} {s t : State}
    (h : Streamed bytes s t) (hs : AtPosition v base p s) : AtPosition v base (p + bytes.length) t := by
  have ⟨hb, hr, hv, hS, hc, hbuf⟩ := hs
  have ⟨_, _, _, hseq⟩ := hb
  have hblocks : ceilBlocks p + runsFor bytes s = ceilBlocks (p + bytes.length) := by
    rw [runsFor, hc, ceilBlocks_add_genRuns]
  refine ⟨h.atBoundary hseq, h.ready.trans hr, h.variant.trans hv, h.S_of_atPosition hs, h.cursor_of_atPosition hs,
    fun hne => ?_⟩
  by_cases hz : runsFor bytes s = 0
  · obtain ⟨-, hM, hB⟩ := h.kept hz
    have hp : p ≠ 0 := by
      rintro rfl
      exact cursor_ne_zero_of_genRuns_eq_zero (by omega) hz hc
    rw [hM, hB, ← hblocks, hz]
    exact hbuf hp
  · obtain ⟨-, hM, hB⟩ := h.generated hz
    rw [hM, hB, blockAt, hv, hS, withCounter_add_sub_one v base _ hz, hblocks]
    exact ⟨rfl, rfl⟩

/-- Settles O28, by the effect of a data command read at a position of its stream. -/
theorem streamPositionAdvances : Obligations.StreamPositionAdvances := by
  intro v base p enc bytes s hs hne
  obtain ⟨t, ht, hst⟩ := exec_dataCommand_of_atPosition enc hs hne
  exact ⟨t, ht, hst.atPosition hs, hst.rsp_of_atPosition hs⟩

/-! ### Data in pieces (R115) -/

/-- The bytes of a stream's data commands, one piece after the other. -/
abbrev joinedData (ps : List (Bool × List Byte)) : List Byte := ps.flatMap fun p => p.2

/-- The keystream of joined data: the second part meets the bytes after the first. -/
theorem xorWith_append (ks : Nat → Byte) (a b : List Byte) :
    xorWith ks (a ++ b) = xorWith ks a ++ xorWith (fun i => ks (i + a.length)) b :=
  List.mapIdx_append

/-- The GEN runs of joined data are those of its parts (44_stream R112). -/
theorem genRuns_add {c : Nat} (hc : c ≤ 64) (m n : Nat) :
    genRuns c (m + n) = genRuns c m + genRuns (cursorAfterBytes c m) n := by
  rcases Nat.eq_zero_or_pos m with rfl | hm
  · rw [genRuns_zero, Nat.zero_add, Nat.zero_add, cursorAfterBytes, if_pos rfl]
  · rw [cursorAfterBytes, if_neg hm.ne']
    simp only [genRuns, ceilBlocks, Nat.add_one_ne_zero, if_false]
    split_ifs <;> omega

/-- The cursor after joined data is that after its parts in order (44_stream R111). -/
theorem cursorAfterBytes_add (c m n : Nat) :
    cursorAfterBytes c (m + n) = cursorAfterBytes (cursorAfterBytes c m) n := by
  simp only [cursorAfterBytes]
  split_ifs <;> omega

/-- The effect of a data command is determined. -/
theorem Streamed.unique {bytes : List Byte} {s t t' : State} (h : Streamed bytes s t) (h' : Streamed bytes s t') :
    t = t' := by
  have hmem : t.seq = t'.seq ∧ t.M = t'.M ∧ t.B = t'.B := by
    by_cases hz : runsFor bytes s = 0
    · simp [h.kept hz, h'.kept hz]
    · simp [h.generated hz, h'.generated hz]
  obtain ⟨hseq, hM, hB⟩ := hmem
  exact state_ext (h.S.trans h'.S.symm) hM hB (BitVec.eq_of_toNat_eq (h.cursor.trans h'.cursor.symm))
    (h.variant.trans h'.variant.symm) (h.ready.trans h'.ready.symm) hseq (h.uir.trans h'.uir.symm)
    (h.data.trans h'.data.symm) (h.out.trans h'.out.symm) (h.host.trans h'.host.symm) (h.rsp.trans h'.rsp.symm)
    (h.resets.trans h'.resets.symm)

/-- The keystream bytes to come, after a data command. -/
theorem Streamed.upcomingByte_eq {bytes : List Byte} {s t : State} (h : Streamed bytes s t)
    (hc : s.cursor.toNat ≤ 64) (i : Nat) :
    upcomingByte t i = upcomingByte s (i + bytes.length) := by
  obtain ⟨u, hu, hst⟩ := streamBytes_streamed bytes s hc
  obtain ⟨u', hu', -, -, hup, -⟩ := streamBytes_spec bytes (acceptData bytes s) rfl hc
  cases hu.symm.trans hu'
  rw [h.unique hst]
  exact hup i

/-- No data: only a response of no bytes. -/
theorem streamed_nil {s : State} (hb : AtBoundary s) : Streamed [] s { s with rsp := s.rsp ++ [[statusOk]] } := by
  obtain ⟨hu, hd, ho, -⟩ := hb
  have hz : runsFor [] s = 0 := genRuns_zero _
  exact
    { S := by rw [hz, Nat.add_zero, withCounter_self], cursor := rfl, variant := rfl, ready := rfl, uir := hu, data := hd,
      out := ho, host := rfl, resets := rfl, rsp := rfl, kept := fun _ => ⟨rfl, rfl, rfl⟩,
      generated := fun hnz => absurd hz hnz }

/-- Two data commands in a row have the effect of one on the joined data, but for the response frames. -/
theorem Streamed.append {a b : List Byte} {s t u : State} (h : Streamed a s t) (h' : Streamed b t u)
    (hc : s.cursor.toNat ≤ 64) :
    Streamed (a ++ b) s
      { u with rsp := s.rsp ++ [statusOk :: (xorWith (upcomingByte s) a ++ xorWith (upcomingByte t) b)] } := by
  have hruns : runsFor (a ++ b) s = runsFor a s + runsFor b t := by
    rw [runsFor, List.length_append, genRuns_add hc, ← h.cursor]
  have hcount : counterValue s.variant s.S + runsFor (a ++ b) s =
      counterValue s.variant s.S + runsFor a s + runsFor b t := by
    rw [hruns, Nat.add_assoc]
  refine
    { S := ?_, cursor := ?_, variant := h'.variant.trans h.variant, ready := h'.ready.trans h.ready, uir := h'.uir,
      data := h'.data, out := h'.out, host := h'.host.trans h.host, resets := h'.resets.trans h.resets, rsp := ?_,
      kept := fun hz => ?_, generated := fun hnz => ?_ }
  · rw [hcount, h'.S, h.variant, h.S, withCounter_add]
  · rw [h'.cursor, h.cursor, List.length_append, cursorAfterBytes_add]
  · rw [xorWith_append, funext (h.upcomingByte_eq hc)]
  · have ⟨hza, hzb⟩ : runsFor a s = 0 ∧ runsFor b t = 0 := by omega
    obtain ⟨hseq, hM, hB⟩ := h.kept hza
    obtain ⟨hseq', hM', hB'⟩ := h'.kept hzb
    exact ⟨hseq'.trans hseq, hM'.trans hM, hB'.trans hB⟩
  · rw [hcount]
    by_cases hzb : runsFor b t = 0
    · have hza : runsFor a s ≠ 0 := by omega
      obtain ⟨hseq, hM, hB⟩ := h.generated hza
      obtain ⟨hseq', hM', hB'⟩ := h'.kept hzb
      rw [hzb, Nat.add_zero]
      exact ⟨hseq'.trans hseq, hM'.trans hM, hB'.trans hB⟩
    · obtain ⟨hseq, hM, hB⟩ := h'.generated hzb
      refine ⟨hseq, ?_, ?_⟩
      · rw [hM, h.variant, h.S, withCounter_add_sub_one _ _ _ hzb]
      · rw [hB, blockAt, h.variant, h.S, withCounter_add_sub_one _ _ _ hzb, blockAt]

/-- Any number of data commands have the effect of one on the joined data, but for the response frames. -/
theorem execAll_dataCommands_streamed (ps : List (Bool × List Byte)) (s : State) (hne : ∀ p ∈ ps, p.2 ≠ [])
    (hb : AtBoundary s) (hr : s.ready = true) (hc : s.cursor.toNat ≤ 64) :
    ∃ (t : State) (outs : List (List Byte)), execAll (dataCommands ps) s = .next t ∧
      outs.map List.length = ps.map (fun p => p.2.length) ∧ t.rsp = s.rsp ++ outs.map (fun o => statusOk :: o) ∧
      Streamed (joinedData ps) s { t with rsp := s.rsp ++ [statusOk :: outs.flatten] } := by
  induction ps generalizing s with
  | nil => exact ⟨s, [], rfl, rfl, by simp, streamed_nil hb⟩
  | cons p ps ih =>
    have ⟨_, _, _, hseq⟩ := hb
    obtain ⟨t, ht, hst⟩ := exec_dataCommand_streamed p.1 hr (hne p List.mem_cons_self) hc
    obtain ⟨u, outs, hu, hlen, hrsp, hrest⟩ := ih t (fun q hq => hne q (List.mem_cons_of_mem p hq))
      (hst.atBoundary hseq) (hst.ready.trans hr) (hst.cursor ▸ cursorAfterBytes_le hc)
    have houts : outs.flatten = xorWith (upcomingByte t) (joinedData ps) := by simpa using hrest.rsp
    refine ⟨u, xorWith (upcomingByte s) p.2 :: outs, ?_, ?_, ?_, ?_⟩
    · rw [dataCommands, List.map_cons, execAll, ht, andThen]
      exact hu
    · rw [List.map_cons, List.map_cons, xorWith_length, hlen]
    · rw [hrsp, hst.rsp, List.map_cons, List.append_assoc, List.singleton_append]
    · rw [List.flatten_cons, houts]
      exact (hst.append hrest hc :)

/-- A data command of no data answers EmptyInput (60_exceptions R124). -/
theorem exec_dataCommand_nil (enc : Bool) {s : State} (hr : s.ready = true) :
    exec (dataCommand enc []) s = .next { s with rsp := s.rsp ++ [[0x03#8]] } := by
  rw [exec_dataCommand, xorTransform, if_neg (by simp [hr]), if_pos rfl]
  simp [raise, respond, clearsReady, statusOf]

/-- Settles O30: pieces and whole have one effect, and an effect is determined. -/
theorem splitInvariance : Obligations.SplitInvariance := by
  intro ps enc s hb hr hc
  refine ⟨fun hps hne => ?_, exec_dataCommand_nil enc hr⟩
  obtain ⟨t, outs, ht, hlen, hrsp, hst⟩ := execAll_dataCommands_streamed ps s hne hb hr hc
  have hjoined : joinedData ps ≠ [] := by
    obtain ⟨p, hp⟩ := List.exists_mem_of_ne_nil ps hps
    exact fun h => hne p hp (List.flatMap_eq_nil_iff.1 h p hp)
  obtain ⟨u, hu, hstu⟩ := exec_dataCommand_streamed enc hr hjoined hc
  cases hstu.unique hst
  exact ⟨t, _, outs, ht, hlen, hrsp, hu, rfl, rfl⟩

/-! ### Two cores on one stream (R117) -/

/-- Data commands move a stream on by all their bytes. -/
theorem execAll_dataCommands_atPosition {v : Variant} {base : Words} (ps : List (Bool × List Byte)) (p : Nat) (s : State)
    (hne : ∀ q ∈ ps, q.2 ≠ []) (hs : AtPosition v base p s) :
    ∃ t, execAll (dataCommands ps) s = .next t ∧ AtPosition v base (p + totalBytes ps) t := by
  induction ps generalizing p s with
  | nil => exact ⟨s, rfl, hs⟩
  | cons q ps ih =>
    obtain ⟨t, ht, hpos, -⟩ := streamPositionAdvances v base p q.1 q.2 s hs (hne q List.mem_cons_self)
    obtain ⟨u, hu, hposu⟩ := ih (p + q.2.length) t (fun r hr => hne r (List.mem_cons_of_mem q hr)) hpos
    refine ⟨u, ?_, ?_⟩
    · rw [dataCommands, List.map_cons, execAll, ht, andThen]
      exact hu
    · rwa [totalBytes, List.map_cons, List.sum_cons, ← Nat.add_assoc]

/-- A legal INIT and then data commands reach the position of all their bytes. -/
theorem execAll_init_dataCommands {key nonce : List Byte} {ps : List (Bool × List Byte)} {s : State}
    (hb : AtBoundary s) (hk : key.length = 32) (hn : nonce.length = 8 ∨ nonce.length = 12)
    (hne : ∀ p ∈ ps, p.2 ≠ []) :
    ∃ t v base, execAll (.init key nonce :: dataCommands ps) s = .next t ∧ Loads key nonce v base ∧
      AtPosition v base (totalBytes ps) t := by
  obtain ⟨u, v, base, hu, hl, hpos⟩ := initStartsStream key nonce s hb hk hn
  obtain ⟨t, ht, htpos⟩ := execAll_dataCommands_atPosition ps 0 u hne hpos
  rw [Nat.zero_add] at htpos
  refine ⟨t, v, base, ?_, hl, htpos⟩
  rw [execAll, hu, andThen, ht]

/-- Combining twice with the same bytes gives the data back. -/
theorem xorWith_xorWith (ks : Nat → Byte) (bytes : List Byte) : xorWith ks (xorWith ks bytes) = bytes := by
  apply List.ext_getElem?
  intro i
  cases h : bytes[i]? <;> simp [h]

theorem xorWith_ne_nil (ks : Nat → Byte) {bytes : List Byte} (h : bytes ≠ []) : xorWith ks bytes ≠ [] := by
  rwa [← List.length_pos_iff, xorWith_length, List.length_pos_iff]

/-- Settles O31: at one position of one stream both cores combine their data with the same keystream. -/
theorem roundTripTwoCores : Obligations.RoundTripTwoCores := by
  intro key nonce ps qs bytes s1 s2 hb1 hb2 hk hn hps hqs hbytes hne
  obtain ⟨t1, v, base, ht1, hl1, hpos1⟩ := execAll_init_dataCommands hb1 hk hn hps
  obtain ⟨t2, v', base', ht2, hl2, hpos2⟩ := execAll_init_dataCommands hb2 hk hn hqs
  obtain ⟨rfl, rfl⟩ := loads_unique hl1 hl2
  rw [← hbytes] at hpos2
  obtain ⟨u1, hu1, -, hrsp1⟩ := streamPositionAdvances v base _ true bytes t1 hpos1 hne
  obtain ⟨u2, hu2, -, hrsp2⟩ := streamPositionAdvances v base _ false _ t2 hpos2
    (xorWith_ne_nil (fun i => keystreamByte v base (totalBytes ps + i)) hne)
  rw [xorWith_xorWith] at hrsp2
  obtain ⟨-, hr1, hv1, hS1, hc1, hB1⟩ := hpos1
  obtain ⟨-, hr2, hv2, hS2, hc2, hB2⟩ := hpos2
  exact ⟨t1, t2, u1, u2, _, ht1, ht2, hS1.trans hS2.symm, BitVec.eq_of_toNat_eq (hc1.trans hc2.symm),
    hv1.trans hv2.symm, hr1.trans hr2.symm, fun h => (hB1 h).1.trans (hB2 h).1.symm, hu1, hrsp1, hu2, hrsp2⟩

/-! ### The two variants on one nonce (R118) -/

/-- Four zero bytes before an 8-byte nonce read as the zero word that is the classic counter's high half. -/
theorem loadState_ietf_zeroExtended (key nonce : List Byte) :
    loadState .ietf key ([0#8, 0#8, 0#8, 0#8] ++ nonce) = loadState .classic key nonce := rfl

/-- With a zero `S[13]` the two variants set a counter below `2^32` alike. -/
theorem withCounter_classic_eq_ietf {base : Words} (h13 : base[13] = 0#32) {n : Nat} (hn : n < 2 ^ 32) :
    withCounter .classic base n = withCounter .ietf base n := by
  rw [withCounter, withCounter, Nat.div_eq_of_lt hn, ← h13,
    Vector.set_comm _ _ (by decide), Vector.set_getElem_self]

/-- A full range of the low word is a carry into `S[13]`. -/
theorem withCounter_classic_carry {base : Words} (h12 : base[12] = 0#32) :
    withCounter .classic base (2 ^ 32) = base.set 13 1#32 := by
  calc withCounter .classic base (2 ^ 32)
      = (base.set 12 0#32).set 13 1#32 := rfl
    _ = base.set 13 1#32 := by rw [← h12, Vector.set_getElem_self]

/-- The IETF counter is back where INIT put it (43_counter R103). -/
theorem withCounter_ietf_wrap {base : Words} (h12 : base[12] = 0#32) : withCounter .ietf base (2 ^ 32) = base := by
  have h0 : counterValue .ietf base = 0 := by rw [counterValue, h12]; rfl
  calc withCounter .ietf base (2 ^ 32)
      = withCounter .ietf base (counterValue .ietf base) := withCounter_congr .ietf base _ _ (by rw [h0]; rfl)
    _ = base := withCounter_self .ietf base

/-- Settles O32: one load, and the counter fields of the two variants from counter 0 on. -/
theorem variantsAgreeUntilCarry : Obligations.VariantsAgreeUntilCarry := by
  intro key nonce hk hn
  obtain ⟨base, hl, -⟩ := loads_classic key nonce hk hn
  have ⟨_, _, hload⟩ := hl
  obtain ⟨h12, h13, -⟩ := loadState_classic_tail hload
  have hietf : Loads key ([0#8, 0#8, 0#8, 0#8] ++ nonce) .ietf base :=
    ⟨hk, by simp [hn, variantOfNonce], (loadState_ietf_zeroExtended key nonce).trans hload⟩
  exact ⟨base, hl, hietf, fun n h => congrArg blockFunction (withCounter_classic_eq_ietf h13 h),
    withCounter_classic_carry h12, withCounter_ietf_wrap h12⟩

end Sys2Proof.Machine
end

section
/-! SUPPORT. The family 60_exceptions: the errors that keep `ready`, raised by a data command (R124, R125) and by an
ill-formed frame (R126). -/

namespace Sys2Proof.Machine

/-- An error that is not INIT's (R124 to R126): its status byte, and nothing else changed. -/
theorem raise_of_not_clearsReady {e : ErrorKind} (h : clearsReady e = false) (s : State) :
    raise e s = { s with rsp := s.rsp ++ [[statusOf e]] } := by
  simp [raise, respond, h]

/-- `ready` is tested first, whatever the data (R128). -/
theorem exec_dataCommand_of_not_ready (enc : Bool) (bytes : List Byte) {s : State} (hr : s.ready = false) :
    exec (dataCommand enc bytes) s = .next (raise .notReady s) := by
  rw [exec_dataCommand, xorTransform, if_pos hr]

/-- Settles O23: the test of `ready`, then the test of the data. -/
theorem dataCommandErrors : Obligations.DataCommandErrors := by
  refine fun enc bytes s => ⟨fun hr => ?_, fun hr => exec_dataCommand_nil enc hr⟩
  rw [exec_dataCommand_of_not_ready enc bytes hr, raise_of_not_clearsReady rfl, statusOf]

/-- Settles O45: the frame is taken, and its decoding is the error IllegalCommand. -/
theorem stepAnswersIllegal : Obligations.StepAnswersIllegal := by
  intro s f rest e hu hh hd
  rw [step_of_frame hu hh, runFrame, hd]
  exact congrArg _ (raise_of_not_clearsReady rfl (withHost rest s))

end Sys2Proof.Machine
end

section
/-! SUPPORT. The family 70_reset_and_hazards: `rst` and a command it cuts short (R140, R141), and a keystream position used
twice (R149). -/

namespace Sys2Proof.Machine

/-! ### Reset (R140, R141) -/

/-- At a command boundary a command cut short is the reset. -/
theorem step_of_cutFrame {s : State} {f : Frame} {rest : List HostAction} (hu : s.uir = none)
    (hh : s.host = .cutFrame f :: rest) : step s = .next (hardwareReset (withHost rest s)) := by
  rw [step_of_uir_none hu, takeHost, hh]

/-- Settles O47: both ways in are `hardwareReset`, and what it leaves is not ready. -/
theorem resetFromAnyState : Obligations.ResetFromAnyState := by
  intro s rest h
  have hstep : step s = .next (hardwareReset (withHost rest s)) := by
    rcases h with hrst | ⟨hu, f, hcut⟩
    · exact step_of_rst hrst
    · exact step_of_cutFrame hu hcut
  exact ⟨_, hstep, afterReset_hardwareReset _, hardwareReset_rsp _, hardwareReset_host _,
    fun enc bytes => (dataCommandErrors enc bytes _).1 (hardwareReset_ready _)⟩

/-! ### A keystream position used twice (R149) -/

/-- A keystream byte used twice cancels. -/
theorem xor_xor_xor_cancel (x y k : Byte) : (x ^^^ k) ^^^ (y ^^^ k) = x ^^^ y := by
  rw [BitVec.xor_assoc, BitVec.xor_comm y k, ← BitVec.xor_assoc k, BitVec.xor_self, BitVec.zero_xor]

/-- Two data combined with the same bytes differ where the data do; a longer one is cut to the other on both sides. -/
theorem zipWith_xor_xorWith (ks : Nat → Byte) (a b : List Byte) :
    List.zipWith (· ^^^ ·) (xorWith ks a) (xorWith ks b) = List.zipWith (· ^^^ ·) a b := by
  apply List.ext_getElem?
  intro i
  cases ha : a[i]? <;> cases hb : b[i]? <;> simp [List.getElem?_zipWith, ha, hb, xor_xor_xor_cancel]

/-- Settles O34: both data meet the same keystream bytes, which cancel. -/
theorem nonceReuseRelatesOutputs : Obligations.NonceReuseRelatesOutputs := by
  intro v base p d d' s s' hs hs' hne hlen
  have hne' : d' ≠ [] := List.ne_nil_of_length_pos (hlen ▸ List.length_pos_iff.2 hne)
  obtain ⟨t, ht, -, hrsp⟩ := streamPositionAdvances v base p true d s hs hne
  obtain ⟨t', ht', -, hrsp'⟩ := streamPositionAdvances v base p true d' s' hs' hne'
  exact ⟨t, t', _, _, ht, ht', hrsp, hrsp', zipWith_xor_xorWith _ d d'⟩

end Sys2Proof.Machine
end

section
/-! SUPPORT. The sample words of 95_test_vectors (D47, D49 to D57), each as an instance of what the decoder does on its kind
of frame or micro-word. -/

namespace Sys2Proof.Machine

/-- Operand bits on a micro-operation without operands (R60). -/
theorem decodeMicro_operandBits {w : MicroWord} {i : Instr} (hi : plainInstr (microOpcode w) = some i)
    (hw : w.toNat % 2 ^ 16 ≠ 0) : decodeMicro w = .error .operandBits := by
  rw [decodeMicro_plain hi, plainMicro, if_neg (mt (low_eq_zero_iff w).1 hw)]

/-- A QR whose index fields repeat (R57, R60). -/
theorem decodeMicro_repeatedIndex {w : MicroWord} (hqr : microOpcode w = 2)
    (hrep : distinctIndices (microIndex w 12) (microIndex w 8) (microIndex w 4) (microIndex w 0) = false) :
    decodeMicro w = .error .repeatedIndex := by
  simp [decodeMicro_qr hqr, decodeQr, hrep]

/-- Settles O42: the three frames and the two QR words are encodings; each reserved word has one of R60's three reasons. -/
theorem sampleEncodings : Obligations.SampleEncodings := by
  have hinit := decode_encode_init (key := []) (nonce := []) (by decide) (by decide)
  have hcolumn : decodeMicro 0x2048C#20 = .ok (.qr 0 4 8 12) :=
    decode_encode_qr (a := 0) (b := 4) (c := 8) (d := 12) rfl
  have hdiagonal : decodeMicro 0x2349E#20 = .ok (.qr 3 4 9 14) :=
    decode_encode_qr (a := 3) (b := 4) (c := 9) (d := 14) rfl
  have hbits : decodeMicro 0x10001#20 = .error .operandBits := decodeMicro_operandBits (i := .ldmix) rfl (by decide)
  have hrepeated : decodeMicro 0x20012#20 = .error .repeatedIndex := decodeMicro_repeatedIndex rfl rfl
  have huop : decodeMicro 0x80000#20 = .error .reservedUop := decodeMicro_reserved (.inr (by decide))
  exact ⟨hinit, decodeFrame_encrypt [], decodeFrame_decrypt [0xaa#8], hcolumn, hdiagonal, hbits, hrepeated, huop⟩

end Sys2Proof.Machine
end
